-- ==== Sys2Proof/Word.lean ====
section
/-! DEFINITION. The word types of the chippy8 CORE (R5, R6): bytes, 16-bit words, 12-bit immediates, register indexes. -/

namespace Sys2Proof

/-- An 8-bit value: a general register, a timer, a memory cell (R5 `XLEN`, R40). -/
abbrev Byte := BitVec 8

/-- A 16-bit value: an instruction word, `I`, `PC`, a call-stack entry (R5 `ILEN`, `IWIDTH`, `PCWIDTH`). -/
abbrev Word := BitVec 16

/-- The 12-bit immediate `nnn` (R61). -/
abbrev Imm12 := BitVec 12

/-- The index of a general register, 0 to 15 (R21, R63). -/
abbrev RegIx := Fin 16

/-- Zero extension of a byte to 16 bits, `zext_16` (R7). -/
abbrev zextByte (b : Byte) : Word := b.setWidth 16

/-- Zero extension of a 12-bit immediate to 16 bits, `zext_16(nnn)` (R7, R63). -/
abbrev zextImm (nnn : Imm12) : Word := nnn.setWidth 16

end Sys2Proof
end

