-- ==== Sys2Proof/Syntax.lean ====
section
/-! DEFINITION. The instructions of the chippy8 CORE as syntax: one constructor per row of the opcode map (R66), in its
order. Every operand is held at the width its field has (R61, R63). -/

namespace Sys2Proof

/-- The 34 instruction kinds with their fields (R66, R67). `x` and `y` index registers, `kk` is an 8-bit immediate, `nnn`
a 12-bit immediate, `n` a sprite row count. -/
inductive Instr where
  /-- `00E0` CLS (R95) -/
  | cls
  /-- `00EE` RET (R100) -/
  | ret
  /-- `1nnn` JP nnn (R101) -/
  | jp (nnn : Imm12)
  /-- `2nnn` CALL nnn (R102) -/
  | call (nnn : Imm12)
  /-- `3xkk` SE Vx, kk (R105) -/
  | seImm (x : RegIx) (kk : Byte)
  /-- `4xkk` SNE Vx, kk (R106) -/
  | sneImm (x : RegIx) (kk : Byte)
  /-- `5xy0` SE Vx, Vy (R107) -/
  | seReg (x y : RegIx)
  /-- `6xkk` LD Vx, kk (R112) -/
  | ldImm (x : RegIx) (kk : Byte)
  /-- `7xkk` ADD Vx, kk (R113) -/
  | addImm (x : RegIx) (kk : Byte)
  /-- `8xy0` LD Vx, Vy (R118) -/
  | ldReg (x y : RegIx)
  /-- `8xy1` OR Vx, Vy (R119) -/
  | orReg (x y : RegIx)
  /-- `8xy2` AND Vx, Vy (R120) -/
  | andReg (x y : RegIx)
  /-- `8xy3` XOR Vx, Vy (R121) -/
  | xorReg (x y : RegIx)
  /-- `8xy4` ADD Vx, Vy (R122) -/
  | addReg (x y : RegIx)
  /-- `8xy5` SUB Vx, Vy (R123) -/
  | subReg (x y : RegIx)
  /-- `8xy6` SHR Vx (R124); `y` is decoded and ignored (R69, log 10) -/
  | shr (x y : RegIx)
  /-- `8xy7` SUBN Vx, Vy (R125) -/
  | subnReg (x y : RegIx)
  /-- `8xyE` SHL Vx (R126); `y` is decoded and ignored (R69) -/
  | shl (x y : RegIx)
  /-- `9xy0` SNE Vx, Vy (R108) -/
  | sneReg (x y : RegIx)
  /-- `Annn` LD I, nnn (R114) -/
  | ldI (nnn : Imm12)
  /-- `Bnnn` JP V0, nnn (R103) -/
  | jpV0 (nnn : Imm12)
  /-- `Cxkk` RND Vx, kk (R115) -/
  | rnd (x : RegIx) (kk : Byte)
  /-- `Dxyn` DRW Vx, Vy, n (R96) -/
  | drw (x y : RegIx) (n : Fin 16)
  /-- `Ex9E` SKP Vx (R109) -/
  | skp (x : RegIx)
  /-- `ExA1` SKNP Vx (R110) -/
  | sknp (x : RegIx)
  /-- `Fx07` LD Vx, DT (R128) -/
  | ldVxDt (x : RegIx)
  /-- `Fx0A` LD Vx, K (R133) -/
  | ldVxK (x : RegIx)
  /-- `Fx15` LD DT, Vx (R129) -/
  | ldDtVx (x : RegIx)
  /-- `Fx18` LD ST, Vx (R130) -/
  | ldStVx (x : RegIx)
  /-- `Fx1E` ADD I, Vx (R131) -/
  | addI (x : RegIx)
  /-- `Fx29` LD F, Vx (R134) -/
  | ldF (x : RegIx)
  /-- `Fx33` LD B, Vx (R135) -/
  | ldB (x : RegIx)
  /-- `Fx55` LD [I], Vx (R136) -/
  | ldMemVx (x : RegIx)
  /-- `Fx65` LD Vx, [I] (R137) -/
  | ldVxMem (x : RegIx)
deriving DecidableEq, Repr

end Sys2Proof
end

