-- ==== Sys2Proof/Decode.lean ====
section
/-! DEFINITION. The `instruction_decoder` (30_encoding.md): fields, decoder and encoder, and the opcode map as data. The
decoder is total over the 65536 words and reads nothing but the word (R67). -/

namespace Sys2Proof

/-- `op = word[15:12]` (R61). -/
def opField (w : Word) : BitVec 4 := w.extractLsb' 12 4

/-- `x = word[11:8]` (R61). -/
def xField (w : Word) : RegIx := (w.extractLsb' 8 4).toFin

/-- `y = word[7:4]` (R61). -/
def yField (w : Word) : RegIx := (w.extractLsb' 4 4).toFin

/-- `n = word[3:0]` (R61). -/
def nField (w : Word) : BitVec 4 := w.extractLsb' 0 4

/-- `kk = word[7:0]` (R61). -/
def kkField (w : Word) : Byte := w.extractLsb' 0 8

/-- `nnn = word[11:0]` (R61). -/
def nnnField (w : Word) : Imm12 := w.extractLsb' 0 12

/-- Family 0 matches the whole word (R65). -/
def decodeFamily0 (w : Word) : Option Instr :=
  if w = 0x00E0#16 then some .cls
  else if w = 0x00EE#16 then some .ret
  else none

/-- Families 5 and 9 need a low nibble of 0 (R65). -/
def decodeNibble0 (w : Word) (i : Instr) : Option Instr :=
  if nField w = 0x0#4 then some i else none

/-- Family 8 decodes on the low nibble (R65). -/
def decodeFamily8 (w : Word) : Option Instr :=
  if nField w = 0x0#4 then some (.ldReg (xField w) (yField w))
  else if nField w = 0x1#4 then some (.orReg (xField w) (yField w))
  else if nField w = 0x2#4 then some (.andReg (xField w) (yField w))
  else if nField w = 0x3#4 then some (.xorReg (xField w) (yField w))
  else if nField w = 0x4#4 then some (.addReg (xField w) (yField w))
  else if nField w = 0x5#4 then some (.subReg (xField w) (yField w))
  else if nField w = 0x6#4 then some (.shr (xField w) (yField w))
  else if nField w = 0x7#4 then some (.subnReg (xField w) (yField w))
  else if nField w = 0xE#4 then some (.shl (xField w) (yField w))
  else none

/-- Family E decodes on the low byte (R65). -/
def decodeFamilyE (w : Word) : Option Instr :=
  if kkField w = 0x9E#8 then some (.skp (xField w))
  else if kkField w = 0xA1#8 then some (.sknp (xField w))
  else none

/-- Family F decodes on the low byte (R65). -/
def decodeFamilyF (w : Word) : Option Instr :=
  if kkField w = 0x07#8 then some (.ldVxDt (xField w))
  else if kkField w = 0x0A#8 then some (.ldVxK (xField w))
  else if kkField w = 0x15#8 then some (.ldDtVx (xField w))
  else if kkField w = 0x18#8 then some (.ldStVx (xField w))
  else if kkField w = 0x1E#8 then some (.addI (xField w))
  else if kkField w = 0x29#8 then some (.ldF (xField w))
  else if kkField w = 0x33#8 then some (.ldB (xField w))
  else if kkField w = 0x55#8 then some (.ldMemVx (xField w))
  else if kkField w = 0x65#8 then some (.ldVxMem (xField w))
  else none

/-- `Decode(word)` (R64 to R67, R83): the instruction a word stands for, `none` for `UNRECOGNIZED`. The top nibble selects
the family. -/
def decode (w : Word) : Option Instr :=
  if opField w = 0x0#4 then decodeFamily0 w
  else if opField w = 0x1#4 then some (.jp (nnnField w))
  else if opField w = 0x2#4 then some (.call (nnnField w))
  else if opField w = 0x3#4 then some (.seImm (xField w) (kkField w))
  else if opField w = 0x4#4 then some (.sneImm (xField w) (kkField w))
  else if opField w = 0x5#4 then decodeNibble0 w (.seReg (xField w) (yField w))
  else if opField w = 0x6#4 then some (.ldImm (xField w) (kkField w))
  else if opField w = 0x7#4 then some (.addImm (xField w) (kkField w))
  else if opField w = 0x8#4 then decodeFamily8 w
  else if opField w = 0x9#4 then decodeNibble0 w (.sneReg (xField w) (yField w))
  else if opField w = 0xA#4 then some (.ldI (nnnField w))
  else if opField w = 0xB#4 then some (.jpV0 (nnnField w))
  else if opField w = 0xC#4 then some (.rnd (xField w) (kkField w))
  else if opField w = 0xD#4 then some (.drw (xField w) (yField w) (nField w).toFin)
  else if opField w = 0xE#4 then decodeFamilyE w
  else decodeFamilyF w

/-- Why a byte sequence gives no instruction. -/
inductive DecodeError where
  /-- fewer than the two bytes every instruction has (R60) -/
  | tooShort
  /-- the word matches no row of the opcode map (R67) -/
  | unrecognized (w : Word)
deriving DecidableEq, Repr

/-- The word of two bytes, the byte at the lower address first: `(hi << 8) | lo` (R46, R60). -/
def wordOfBytes (hi lo : Byte) : Word := hi ++ lo

/-- The byte at the lower address, bits 15 to 8 (R60). -/
def highByte (w : Word) : Byte := w.extractLsb' 8 8

/-- The byte at the higher address, bits 7 to 0 (R60). -/
def lowByte (w : Word) : Byte := w.extractLsb' 0 8

/-- The decoder on bytes as they lie in memory: an instruction and the bytes after it, or the reason there is none. -/
def decodeBytes : List Byte → Except DecodeError (Instr × List Byte)
  | hi :: lo :: rest =>
    match decode (wordOfBytes hi lo) with
    | some i => .ok (i, rest)
    | none => .error (.unrecognized (wordOfBytes hi lo))
  | _ => .error .tooShort

/-- Format NNN: `op || nnn` (R62). -/
def encNNN (op : BitVec 4) (nnn : Imm12) : Word := op ++ nnn

/-- Formats XKK and XSS: `op || x || kk` (R62). -/
def encXKK (op : BitVec 4) (x : RegIx) (kk : Byte) : Word := op ++ (BitVec.ofFin x : BitVec 4) ++ kk

/-- Formats XYS and XYN: `op || x || y || n` (R62). -/
def encXYN (op : BitVec 4) (x y : RegIx) (n : BitVec 4) : Word :=
  op ++ (BitVec.ofFin x : BitVec 4) ++ (BitVec.ofFin y : BitVec 4) ++ n

/-- The word of an instruction, written from the patterns of the opcode map (R62, R66). -/
def encode : Instr → Word
  | .cls => 0x00E0#16
  | .ret => 0x00EE#16
  | .jp nnn => encNNN 0x1#4 nnn
  | .call nnn => encNNN 0x2#4 nnn
  | .seImm x kk => encXKK 0x3#4 x kk
  | .sneImm x kk => encXKK 0x4#4 x kk
  | .seReg x y => encXYN 0x5#4 x y 0x0#4
  | .ldImm x kk => encXKK 0x6#4 x kk
  | .addImm x kk => encXKK 0x7#4 x kk
  | .ldReg x y => encXYN 0x8#4 x y 0x0#4
  | .orReg x y => encXYN 0x8#4 x y 0x1#4
  | .andReg x y => encXYN 0x8#4 x y 0x2#4
  | .xorReg x y => encXYN 0x8#4 x y 0x3#4
  | .addReg x y => encXYN 0x8#4 x y 0x4#4
  | .subReg x y => encXYN 0x8#4 x y 0x5#4
  | .shr x y => encXYN 0x8#4 x y 0x6#4
  | .subnReg x y => encXYN 0x8#4 x y 0x7#4
  | .shl x y => encXYN 0x8#4 x y 0xE#4
  | .sneReg x y => encXYN 0x9#4 x y 0x0#4
  | .ldI nnn => encNNN 0xA#4 nnn
  | .jpV0 nnn => encNNN 0xB#4 nnn
  | .rnd x kk => encXKK 0xC#4 x kk
  | .drw x y n => encXYN 0xD#4 x y (BitVec.ofFin n)
  | .skp x => encXKK 0xE#4 x 0x9E#8
  | .sknp x => encXKK 0xE#4 x 0xA1#8
  | .ldVxDt x => encXKK 0xF#4 x 0x07#8
  | .ldVxK x => encXKK 0xF#4 x 0x0A#8
  | .ldDtVx x => encXKK 0xF#4 x 0x15#8
  | .ldStVx x => encXKK 0xF#4 x 0x18#8
  | .addI x => encXKK 0xF#4 x 0x1E#8
  | .ldF x => encXKK 0xF#4 x 0x29#8
  | .ldB x => encXKK 0xF#4 x 0x33#8
  | .ldMemVx x => encXKK 0xF#4 x 0x55#8
  | .ldVxMem x => encXKK 0xF#4 x 0x65#8

/-- The bytes of an instruction as they lie in memory, high byte first (R60). -/
def encodeBytes (i : Instr) : List Byte := [highByte (encode i), lowByte (encode i)]

/-- A row of the opcode map: a word `w` is the row's instruction iff `w & mask == value` (R66). -/
structure OpRow where
  mask : Word
  value : Word
deriving DecidableEq, Repr

/-- Rows 1 to 9 of the opcode map (R66). -/
def opcodeMapLow : List OpRow :=
  [⟨0xFFFF, 0x00E0⟩, ⟨0xFFFF, 0x00EE⟩, ⟨0xF000, 0x1000⟩, ⟨0xF000, 0x2000⟩, ⟨0xF000, 0x3000⟩, ⟨0xF000, 0x4000⟩,
   ⟨0xF00F, 0x5000⟩, ⟨0xF000, 0x6000⟩, ⟨0xF000, 0x7000⟩]

/-- Rows 10 to 18 of the opcode map, family 8 (R66). -/
def opcodeMapAlu : List OpRow :=
  [⟨0xF00F, 0x8000⟩, ⟨0xF00F, 0x8001⟩, ⟨0xF00F, 0x8002⟩, ⟨0xF00F, 0x8003⟩, ⟨0xF00F, 0x8004⟩, ⟨0xF00F, 0x8005⟩,
   ⟨0xF00F, 0x8006⟩, ⟨0xF00F, 0x8007⟩, ⟨0xF00F, 0x800E⟩]

/-- Rows 19 to 34 of the opcode map (R66). -/
def opcodeMapHigh : List OpRow :=
  [⟨0xF00F, 0x9000⟩, ⟨0xF000, 0xA000⟩, ⟨0xF000, 0xB000⟩, ⟨0xF000, 0xC000⟩, ⟨0xF000, 0xD000⟩, ⟨0xF0FF, 0xE09E⟩,
   ⟨0xF0FF, 0xE0A1⟩, ⟨0xF0FF, 0xF007⟩, ⟨0xF0FF, 0xF00A⟩, ⟨0xF0FF, 0xF015⟩, ⟨0xF0FF, 0xF018⟩, ⟨0xF0FF, 0xF01E⟩,
   ⟨0xF0FF, 0xF029⟩, ⟨0xF0FF, 0xF033⟩, ⟨0xF0FF, 0xF055⟩, ⟨0xF0FF, 0xF065⟩]

/-- The opcode map, one row per instruction, in the spec's order (R66). -/
def opcodeMap : List OpRow := opcodeMapLow ++ opcodeMapAlu ++ opcodeMapHigh

/-- Whether a word matches a row (R66). -/
def OpRow.selects (r : OpRow) (w : Word) : Bool := w &&& r.mask == r.value

/-- The row number of an instruction in the opcode map, counted from 0 (R66). -/
def Instr.rowIndex : Instr → Fin 34
  | .cls => 0
  | .ret => 1
  | .jp _ => 2
  | .call _ => 3
  | .seImm _ _ => 4
  | .sneImm _ _ => 5
  | .seReg _ _ => 6
  | .ldImm _ _ => 7
  | .addImm _ _ => 8
  | .ldReg _ _ => 9
  | .orReg _ _ => 10
  | .andReg _ _ => 11
  | .xorReg _ _ => 12
  | .addReg _ _ => 13
  | .subReg _ _ => 14
  | .shr _ _ => 15
  | .subnReg _ _ => 16
  | .shl _ _ => 17
  | .sneReg _ _ => 18
  | .ldI _ => 19
  | .jpV0 _ => 20
  | .rnd _ _ => 21
  | .drw _ _ _ => 22
  | .skp _ => 23
  | .sknp _ => 24
  | .ldVxDt _ => 25
  | .ldVxK _ => 26
  | .ldDtVx _ => 27
  | .ldStVx _ => 28
  | .addI _ => 29
  | .ldF _ => 30
  | .ldB _ => 31
  | .ldMemVx _ => 32
  | .ldVxMem _ => 33

/-- The word of an instruction whose bits are `w`, numbered as the opcode table numbers them: the bits above `nbits` are 0
and an instruction has 16 bits (R60, R70). -/
def tableWord (nbits w : Nat) : Word := BitVec.ofNat 16 (w % 2 ^ nbits)

/-- The instruction the decoder reads from a table word laid out in memory as the hardware stores it, high byte first. -/
def decodeTableWord (nbits w : Nat) : Option Instr :=
  match decodeBytes [highByte (tableWord nbits w), lowByte (tableWord nbits w)] with
  | .ok (i, _) => some i
  | .error _ => none

end Sys2Proof
end

