-- ==== Sys2Proof/Config.lean ====
section
/-! DEFINITION. The parameters of the machine (R5): the fixed sizes, and the three points the spec leaves OPEN,
which have no body here (EDGE_POLICY, FONT, the random byte). -/

namespace Sys2Proof

/-- What happens to a sprite pixel outside the 64 by 32 grid: the three values of `EDGE_POLICY` (R5, R97). -/
inductive EdgePolicy where
  /-- each pixel wraps on its own, in both axes (R97) -/
  | wrap
  /-- the pixel is not drawn and cannot collide (R97) -/
  | clip
  /-- the `DRW` raises `DRAW_OUT_OF_RANGE` (R96 phase 2, R147) -/
  | fault
deriving DecidableEq, Repr, Inhabited

/-- The OPEN parameters that stay fixed while the machine runs (R5, R11). They are held as plain data beside the state,
so that a statement about every state is a statement about every value of them. -/
structure Params where
  /-- `EDGE_POLICY` (R5, R97) -/
  edge : EdgePolicy
  /-- `FONT[0..79]` (R5, R43) -/
  font : Vector Byte 80
deriving DecidableEq, Repr

namespace Config

/-- `MEM_SIZE`: 4096 bytes, addresses 0 to 4095 (R5, R40). -/
abbrev memSize : Nat := 4096

/-- `FONT_LEN`: the font fills addresses 0 to 79 (R5, R41). -/
abbrev fontLen : Nat := 80

/-- `PROG_BASE`: the load address and the reset `PC` (R5, R41, R172). -/
abbrev progBase : Nat := 0x200

/-- `IMAGE_MAX`: the longest program image, 4096 - 0x200 bytes (R5, R148). -/
abbrev imageMax : Nat := 3584

/-- `STACK_DEPTH`: 16 return addresses (R5, R26). -/
abbrev stackDepth : Nat := 16

/-- `FB_W`: 64 columns (R5, R29). -/
abbrev fbW : Nat := 64

/-- `FB_H`: 32 rows (R5, R29). -/
abbrev fbH : Nat := 32

/-- FREE: the `EDGE_POLICY` of the machine (R5, R97, D10). No value is chosen (log 2). -/
opaque edgePolicy : EdgePolicy

/-- FREE: the 80 font bytes of the machine (R5, R43, D13). No value is chosen (log 3). -/
opaque font : Vector Byte 80

/-- FREE: the random byte supplied to the n-th `Cycle` (R82, R115, D15). No law holds of it (log 1). -/
opaque randomByte : Nat → Byte

/-- The font the spec SUGGESTS (R43, from general knowledge, not in the source). Nothing in the machine reads it: it is
here so that a test or a claim may assume it by name. -/
def suggestedFont : Vector Byte 80 :=
  #v[0xF0, 0x90, 0x90, 0x90, 0xF0, 0x20, 0x60, 0x20, 0x20, 0x70, 0xF0, 0x10, 0xF0, 0x80, 0xF0, 0xF0, 0x10, 0xF0, 0x10, 0xF0,
     0x90, 0x90, 0xF0, 0x10, 0x10, 0xF0, 0x80, 0xF0, 0x10, 0xF0, 0xF0, 0x80, 0xF0, 0x90, 0xF0, 0xF0, 0x10, 0x20, 0x40, 0x40,
     0xF0, 0x90, 0xF0, 0x90, 0xF0, 0xF0, 0x90, 0xF0, 0x10, 0xF0, 0xF0, 0x90, 0xF0, 0x90, 0x90, 0xE0, 0x90, 0xE0, 0x90, 0xE0,
     0xF0, 0x80, 0x80, 0x80, 0xF0, 0xE0, 0x90, 0x90, 0x90, 0xE0, 0xF0, 0x80, 0xF0, 0x80, 0xF0, 0xF0, 0x80, 0xF0, 0x80, 0x80]

end Config

end Sys2Proof
end

