-- ==== Sys2Proof/Machine/State.lean ====
section
/-! DEFINITION. The whole state of the machine (R20), plain data, and its reset values (R35). The last two fields of
`State` are the model's own: the ports of the fixed interface and the OPEN parameters. -/

namespace Sys2Proof.Machine

/-- The condition codes of the machine (R140, log 16). -/
inductive Code where
  /-- 0: a recognized instruction completed; in `HALT`, the machine runs -/
  | ok
  /-- 1, not fatal: the fetched word matches no row of the opcode map (R141) -/
  | unknownOpcode
  /-- 2, fatal: `CALL` with 16 addresses held (R142) -/
  | stackOverflow
  /-- 3, fatal: `RET` with no address held (R143) -/
  | stackUnderflow
  /-- 4, fatal: a read above address 4095 (R144) -/
  | addressOutOfRange
  /-- 5, fatal: `SKP` or `SKNP` with `V[x]` above 15 (R146) -/
  | keyIndexOutOfRange
  /-- 6, fatal: a set sprite bit off the grid, only under `EDGE_POLICY = fault` (R147) -/
  | drawOutOfRange
  /-- 7, fatal: `LoadImage` of more than 3584 bytes (R148) -/
  | imageTooLarge
deriving DecidableEq, Repr

/-- A condition with its info value: the shape of `HALT` (R33) and of the status output (R89). -/
structure Status where
  code : Code
  info : Word
deriving DecidableEq, Repr

/-- `MEM` (R40) as the bytes that differ from the reset contents: address and byte, addresses strictly rising (log 12). -/
abbrev Memory := List Host.Cell

/-- `FB` (R29): 32 rows of 64 one-bit cells; bit `c` of row `r` is the cell `FB[r][c]` (log 11). -/
abbrev Framebuffer := Vector (BitVec 64) 32

/-- A framebuffer cell: its row and its column (R29). -/
abbrev FbCell := Fin 32 × Fin 64

/-- The MODEL's own fields: the inputs and outputs of the `Cycle` transaction, which the spec does not count as state (R34,
R39), held here because a step of the fixed interface maps a state to a state. No rule of the machine reads `status`,
`tone` or `loadable` (log 1, log 4, log 5). -/
structure Ports where
  /-- the `rnd` input of the current `Cycle` (R82) -/
  rnd : Byte
  /-- how many random bytes have been supplied: the argument of the free value `Config.randomByte` (log 1) -/
  draws : Nat
  /-- the status output of the last `Cycle` or `LoadImage` (R89, R160) -/
  status : Status
  /-- the tone output of the last `Cycle` (R88) -/
  tone : Bool
  /-- whether `LoadImage` is legal: after `Reset`, before the first `Cycle`, not yet done (R160) -/
  loadable : Bool
deriving DecidableEq, Repr

/-- The complete state of the machine (R20), with the ports and the parameters. -/
structure State where
  /-- `V[0..15]` (R21); `V[15]` is the flag register `VF` (R22) -/
  v : Vector Byte 16
  /-- `I`, the index register (R23) -/
  i : Word
  /-- `PC` (R24) -/
  pc : Word
  /-- `STACK[0..15]` (R25) -/
  stack : Vector Word 16
  /-- `SP`, the depth, 0 to 16 (R26) -/
  sp : Fin 17
  /-- `DT` (R27) -/
  dt : Byte
  /-- `ST` (R28) -/
  st : Byte
  /-- `FB` (R29) -/
  fb : Framebuffer
  /-- `DIRTY` (R30) -/
  dirty : Bool
  /-- `KEY[0..15]` (R31) -/
  key : Vector Bool 16
  /-- `MEM[0..4095]` (R32, R40) -/
  mem : Memory
  /-- `HALT` (R33) -/
  halt : Status
  /-- the transaction's inputs and outputs (the model's own) -/
  ports : Ports
  /-- `EDGE_POLICY` and `FONT` (R5, R11); no operation of the machine writes them -/
  params : Params
deriving DecidableEq, Repr

/-- Why a step stops with a fault. There is no constructor: every `Cycle` returns (R92), and every condition of the spec has
a described next state, with `HALT` latched where it is fatal (R90, R91, R145). Nothing raises a fault; safe (log 7). -/
inductive Fault where
deriving DecidableEq, Repr

/-- Why the model gives no move. -/
inductive Refusal where
  /-- Raised by an arm of `exec` whose instruction has no meaning yet. No arm does. Safe: a run stops there. -/
  | notModelled (mnemonic : String)
  /-- Raised by the host operation `LoadImage` outside its window (after `Reset`, before the first `Cycle`, once): R160 and
  R57 give it no move there. Unsafe where a real host reloads mid-run (log 5). Never raised by a `Cycle`. -/
  | loadImageOutsideWindow
deriving DecidableEq, Repr

/-- The machine after `Reset` (R35, R170), with the parameters left free (log 2, log 3) and the ports at the values of
log 1, log 4 and log 5. -/
def State.reset : State where
  v := Vector.replicate 16 0x00#8
  i := 0x0000#16
  pc := 0x0200#16
  stack := Vector.replicate 16 0x0000#16
  sp := 0
  dt := 0x00#8
  st := 0x00#8
  fb := Vector.replicate 32 0#64
  dirty := false
  key := Vector.replicate 16 false
  mem := []
  halt := ⟨.ok, 0x0000#16⟩
  ports := { rnd := 0x00#8, draws := 0, status := ⟨.ok, 0x0000#16⟩, tone := false, loadable := true }
  params := { edge := Config.edgePolicy, font := Config.font }

end Sys2Proof.Machine
end

