-- ==== Sys2Proof/Machine/Ops.lean ====
section
/-! DEFINITION. The named operations over registers, memory, the call stack and the framebuffer, and raising a fatal
condition (R145), that the meanings are written over. -/

namespace Sys2Proof.Machine

/-- The 3-bit number of a condition code (R140). -/
def Code.num : Code → BitVec 3
  | .ok => 0
  | .unknownOpcode => 1
  | .stackOverflow => 2
  | .stackUnderflow => 3
  | .addressOutOfRange => 4
  | .keyIndexOutOfRange => 5
  | .drawOutOfRange => 6
  | .imageTooLarge => 7

/-- Whether a condition is fatal (R140). -/
def Code.fatal : Code → Bool
  | .ok => false
  | .unknownOpcode => false
  | .stackOverflow => true
  | .stackUnderflow => true
  | .addressOutOfRange => true
  | .keyIndexOutOfRange => true
  | .drawOutOfRange => true
  | .imageTooLarge => true

/-! ### General registers (R21) -/

/-- `VF`, the flag register (R22). -/
abbrev vf : RegIx := 15

/-- Read `V[x]` (R7, R21). -/
def State.reg (s : State) (x : RegIx) : Byte := s.v[x]

/-- `V[x] <- b` (R7, R21). -/
def State.setReg (s : State) (x : RegIx) (b : Byte) : State := { s with v := s.v.set x b }

/-! ### The other registers -/

/-- `I <- w` (R23). -/
def State.setI (s : State) (w : Word) : State := { s with i := w }

/-- `PC <- target` (R24). -/
def State.setPc (s : State) (target : Word) : State := { s with pc := target }

/-- `DT <- b` (R27). -/
def State.setDt (s : State) (b : Byte) : State := { s with dt := b }

/-- `ST <- b` (R28). -/
def State.setSt (s : State) (b : Byte) : State := { s with st := b }

/-- `PC <- PC + 2` (R84); a 16-bit sum, which no reachable state wraps (log 8). -/
def State.advance (s : State) : State := s.setPc (s.pc + 2)

/-- The skip: `PC + 4` when the condition holds, else `PC + 2` (R111). -/
def State.skipIf (s : State) (taken : Bool) : State := s.setPc (if taken then s.pc + 4 else s.pc + 2)

/-! ### Fatal conditions (R91, R145) -/

/-- `raise C(info)`: the state is what it was, with `HALT <- (code, info)` (R91, R145). Every meaning makes its checks before
its writes, so the state given here is the one the `Cycle` began with. There is no return from it but `Reset` (R152),
`hostReset` in HostOps. -/
def State.raise (s : State) (c : Code) (info : Word) : State := { s with halt := ⟨c, info⟩ }

/-- Whether the machine is halted: `HALT.code != 0` (R33, R90). -/
def State.halted (s : State) : Bool := s.halt.code != .ok

/-! ### Memory (20_memory.md) -/

/-- The reset contents of an address, which an unlisted address reads as: the font at 0 to 79, 0x00 above (R35, R41). -/
def background (font : Vector Byte 80) (a : Nat) : Byte := if h : a < Config.fontLen then font[a] else 0x00#8

/-- The byte at an address of `MEM`, without the range check. -/
def readCell (font : Vector Byte 80) : Memory → Nat → Byte
  | [], a => background font a
  | (b, x) :: rest, a => if a = b then x else readCell font rest a

/-- Take an address out of the list. -/
def eraseCell (m : Memory) (a : Nat) : Memory := m.filter (fun c => c.1 != a)

/-- Put a byte at its place in the rising order of addresses. -/
def insertCell : Memory → Nat → Byte → Memory
  | [], a, x => [(a, x)]
  | (b, y) :: rest, a, x =>
    if a < b then (a, x) :: (b, y) :: rest
    else if a = b then (a, x) :: rest
    else (b, y) :: insertCell rest a x

/-- `MEM[a] <- x` on the list: writing what an unlisted address reads as takes the entry out (log 12). -/
def writeCell (font : Vector Byte 80) (m : Memory) (a : Nat) (x : Byte) : Memory :=
  if x = background font a then eraseCell m a else insertCell m a x

/-- Consecutive byte writes from an address on, in ascending order. -/
def writeCells (font : Vector Byte 80) : Memory → Nat → List Byte → Memory
  | m, _, [] => m
  | m, a, x :: rest => writeCells font (writeCell font m a x) (a + 1) rest

/-- The canonical form: addresses strictly rising, all of them in 0 to 4095, no entry equal to what its address reads as
when unlisted (log 12). -/
def memWf (font : Vector Byte 80) (m : Memory) : Bool :=
  decide (m.Pairwise (fun c d => c.1 < d.1)) && m.all (fun c => decide (c.1 < Config.memSize) && c.2 != background font c.1)

/-- The byte `MEM[a]` of a state. -/
def State.cell (s : State) (a : Nat) : Byte := readCell s.params.font s.mem a

/-- `MemRead(addr, 1)` (R44): the byte, or `none` where the spec raises `ADDRESS_OUT_OF_RANGE(addr)`. -/
def State.memRead (s : State) (a : Nat) : Option Byte := if a < Config.memSize then some (s.cell a) else none

/-- `MemRead(addr, n)` (R44): one byte after the other in ascending order, each checked on its own, addresses not reduced.
On failure, the lowest address out of range. -/
def State.memReads (s : State) : Nat → Nat → Except Nat (List Byte)
  | _, 0 => .ok []
  | a, n + 1 =>
    match s.memRead a with
    | none => .error a
    | some b =>
      match s.memReads (a + 1) n with
      | .error e => .error e
      | .ok bs => .ok (b :: bs)

/-- `MemWrite` of a byte sequence from `a` on (R45). No instruction calls it; `LoadImage` does (R160). -/
def State.memWrites (s : State) (a : Nat) (bytes : List Byte) : State :=
  { s with mem := writeCells s.params.font s.mem a bytes }

/-! ### The call stack (R25, R26) -/

/-- `push(addr)`: `STACK[SP] <- addr; SP <- SP + 1` (R102); `none` when 16 addresses are held. -/
def State.push (s : State) (addr : Word) : Option State :=
  if h : s.sp.val < Config.stackDepth then
    some { s with stack := s.stack.set s.sp.val addr h, sp := ⟨s.sp.val + 1, Nat.succ_lt_succ h⟩ }
  else none

/-- `pop() -> addr`: `STACK[SP - 1]`, and `SP <- SP - 1` (R100); `none` when the stack is empty. The entry keeps its value
(R25). -/
def State.pop (s : State) : Option (Word × State) :=
  if s.sp.val = 0 then none
  else some (s.stack[s.sp.val - 1]'(by have := s.sp.isLt; omega), { s with sp := ⟨s.sp.val - 1, by have := s.sp.isLt; omega⟩ })

/-! ### The framebuffer (R29, R95 to R97) -/

/-- `FB[r][c]` (R7, R29). -/
def fbGet (fb : Framebuffer) (t : FbCell) : Bool := fb[t.1].getLsbD t.2.val

/-- Toggle one cell: `FB[r][c] <- FB[r][c] ^ 1` (R96, R99). -/
def fbToggle (fb : Framebuffer) (t : FbCell) : Framebuffer := fb.set t.1 (fb[t.1] ^^^ BitVec.twoPow 64 t.2.val)

/-- Every cell off (R95, R99 `clear()`). -/
def fbClear : Framebuffer := Vector.replicate 32 0#64

/-- Column offsets of the set bits of a sprite byte, most significant bit first: offset `i` is bit `7 - i` (R96, C10). -/
def spriteColumns (row : Byte) : List Nat := (List.range 8).filter (fun i => row.getLsbD (7 - i))

/-- The mathematical coordinates (column, row) of the set bits of a sprite whose next row is `cy`, in the order of the pixel
loop; the sums are not truncated (R96). -/
def spritePixels (cx : Nat) : Nat → List Byte → List (Nat × Nat)
  | _, [] => []
  | cy, row :: rest => (spriteColumns row).map (fun i => (cx + i, cy)) ++ spritePixels cx (cy + 1) rest

/-- Whether mathematical coordinates lie outside the grid: column above 63 or row above 31 (R97). -/
def offGrid (p : Nat × Nat) : Bool := decide (63 < p.1) || decide (31 < p.2)

/-- `Target(col, row)` (R97): in range the cell itself, out of range what `EDGE_POLICY` says. Under `fault` an off-grid pixel
has been refused by phase 2 of R96 before. -/
def target (edge : EdgePolicy) (p : Nat × Nat) : Option FbCell :=
  if offGrid p then
    match edge with
    | .wrap => some (Fin.ofNat 32 p.2, Fin.ofNat 64 p.1)
    | .clip => none
    | .fault => none
  else some (Fin.ofNat 32 p.2, Fin.ofNat 64 p.1)

/-- Phase 3 of R96: toggle the cells one after the other; the collision flag is set by a cell that was on before its toggle
and never cleared. -/
def blit : Framebuffer → Bool → List FbCell → Framebuffer × Bool
  | fb, hit, [] => (fb, hit)
  | fb, hit, t :: rest => blit (fbToggle fb t) (hit || fbGet fb t) rest

/-! ### The ports (the model's own) -/

/-- A `Cycle` is invoked with its random byte (R80, R82); from now on no image may be loaded (R160). -/
def State.invoke (s : State) (rnd : Byte) : State :=
  { s with ports := { s.ports with rnd := rnd, draws := s.ports.draws + 1, loadable := false } }

/-- The outputs a `Cycle` returns (R80, R88, R89). -/
def State.report (s : State) (status : Status) (tone : Bool) : State :=
  { s with ports := { s.ports with status := status, tone := tone } }

end Sys2Proof.Machine
end

