-- ==== Sys2Proof/Machine/Flags.lean ====
section
/-! DEFINITION. Every flag computation of the machine: what `VF` receives as a side effect (R22). There is no flags
register. The tests of SUB, SUBN and SHL are this hardware's own (R123, R125, R126, D16, D17). -/

namespace Sys2Proof.Machine

/-- `V[y] > 255 - V[x]`: the test ADD, SUB and SUBN share, for `a = V[x]` and `b = V[y]` (R122, R123, R125). -/
def sumExceedsByte (a b : Byte) : Bool := decide (b.toNat > 255 - a.toNat)

/-- The flag of `8xy4` ADD: 1 if the test holds, else 0 (R122). -/
def addFlag (a b : Byte) : Byte := if sumExceedsByte a b then 1 else 0

/-- The flag of `8xy5` SUB and `8xy7` SUBN: 0 if the test holds, else 1; it is not a borrow test (R123, R125). -/
def subFlag (a b : Byte) : Byte := if sumExceedsByte a b then 0 else 1

/-- The flag of `8xy6` SHR: the bit shifted out (R124). -/
def shrFlag (a : Byte) : Byte := a &&& 0x01#8

/-- The flag of `8xyE` SHL: the low three bits of the operand (R126). -/
def shlFlag (a : Byte) : Byte := a &&& 0x07#8

/-- The flag of `Dxyn` DRW: 1 if a toggled cell was on, else 0 (R96). -/
def collisionFlag (hit : Bool) : Byte := if hit then 1 else 0

end Sys2Proof.Machine
end

