-- ==== Sys2Proof/Machine/Operands.lean ====
section
/-! DEFINITION. The operand forms of the machine that need more than a register index or an immediate used as is (R63): the
key index of SKP and SKNP, the offset jump target, the sprite of DRW, and the flag-first result of family 8 (R117). -/

namespace Sys2Proof.Machine

/-- The key numbered by the VALUE of a register: `KEY[V[x]]`, `none` where `V[x] > 15` (R109, R110). -/
def State.keyOf (s : State) (x : RegIx) : Option Bool := s.key[(s.reg x).toNat]?

/-- The target of `JP V0, nnn`: `zext_16(nnn) + zext_16(V[0])`, not reduced modulo 4096 (R103). -/
def State.offsetTarget (s : State) (nnn : Imm12) : Word := zextImm nnn + zextByte (s.reg 0)

/-- The sprite bytes of `DRW`: `MemRead(I + j, 1)` for `j` in 0 to n - 1, or the lowest address out of range (R96 phase 1). -/
def State.spriteRows (s : State) (n : Fin 16) : Except Nat (List Byte) := s.memReads s.i.toNat n.val

/-- The pixels of a sprite placed at column `V[x]` and row `V[y]` (R96). -/
def State.spriteAt (s : State) (x y : RegIx) (rows : List Byte) : List (Nat × Nat) :=
  spritePixels (s.reg x).toNat (s.reg y).toNat rows

/-- The two statements of a flag-writing family-8 instruction, in order (R117): `VF` receives `flag`, then `V[x]` receives a
result computed from the registers as they stand AFTER the flag write, then `PC <- PC + 2`. -/
def State.flagThenResult (s : State) (flag : Byte) (x : RegIx) (result : State → Byte) : State :=
  ((s.setReg vf flag).setReg x (result (s.setReg vf flag))).advance

end Sys2Proof.Machine
end

