-- ==== Sys2Proof/Machine/Alu.lean ====
section
/-! DEFINITION. The meanings of the register-to-register operations, family 8 (R117 to R127). The five that write a flag
write it first and re-read the registers for the result (R117). -/

namespace Sys2Proof.Machine

/-- `8xy0` LD: `V[x] <- V[y]` (R118). -/
def execLdReg (x y : RegIx) (s : State) : Host.Outcome State Fault Refusal := .next (s.setReg x (s.reg y)).advance

/-- `8xy1` OR, no flag (R119). -/
def execOrReg (x y : RegIx) (s : State) : Host.Outcome State Fault Refusal :=
  .next (s.setReg x (s.reg x ||| s.reg y)).advance

/-- `8xy2` AND, no flag (R120). -/
def execAndReg (x y : RegIx) (s : State) : Host.Outcome State Fault Refusal :=
  .next (s.setReg x (s.reg x &&& s.reg y)).advance

/-- `8xy3` XOR, no flag (R121). -/
def execXorReg (x y : RegIx) (s : State) : Host.Outcome State Fault Refusal :=
  .next (s.setReg x (s.reg x ^^^ s.reg y)).advance

/-- `8xy4` ADD: the carry to `VF`, then `V[x] <- (V[x] + V[y]) mod 256` (R122). -/
def execAddReg (x y : RegIx) (s : State) : Host.Outcome State Fault Refusal :=
  .next (s.flagThenResult (addFlag (s.reg x) (s.reg y)) x (fun t => t.reg x + t.reg y))

/-- `8xy5` SUB: the source's own test to `VF`, then `V[x] <- (V[x] - V[y]) mod 256` (R123). -/
def execSubReg (x y : RegIx) (s : State) : Host.Outcome State Fault Refusal :=
  .next (s.flagThenResult (subFlag (s.reg x) (s.reg y)) x (fun t => t.reg x - t.reg y))

/-- `8xy6` SHR: the low bit to `VF`, then `V[x] <- V[x] >> 1`; `y` is ignored (R124, R69). -/
def execShr (x _y : RegIx) (s : State) : Host.Outcome State Fault Refusal :=
  .next (s.flagThenResult (shrFlag (s.reg x)) x (fun t => t.reg x >>> 1))

/-- `8xy7` SUBN: the same test as SUB to `VF`, then `V[x] <- (V[y] - V[x]) mod 256` (R125). -/
def execSubnReg (x y : RegIx) (s : State) : Host.Outcome State Fault Refusal :=
  .next (s.flagThenResult (subFlag (s.reg x) (s.reg y)) x (fun t => t.reg y - t.reg x))

/-- `8xyE` SHL: the low three bits to `VF`, then `V[x] <- (V[x] << 1) mod 256`; `y` is ignored (R126, R69). -/
def execShl (x _y : RegIx) (s : State) : Host.Outcome State Fault Refusal :=
  .next (s.flagThenResult (shlFlag (s.reg x)) x (fun t => t.reg x <<< 1))

end Sys2Proof.Machine
end

