-- ==== Sys2Proof/Machine/Display.lean ====
section
/-! DEFINITION. The meanings of the display instructions: CLS (R95) and DRW (R96, R97). -/

namespace Sys2Proof.Machine

/-- `00E0` CLS: every cell off, `DIRTY <- 1` (R95). -/
def execCls (s : State) : Host.Outcome State Fault Refusal :=
  .next { s with fb := fbClear, dirty := true }.advance

/-- Phase 3 of DRW: draw the pixels, `VF` to the collision flag, `DIRTY <- 1`, `PC <- PC + 2` (R96). -/
def State.drawPixels (s : State) (pixels : List (Nat × Nat)) : State :=
  let drawn := blit s.fb false (pixels.filterMap (target s.params.edge))
  { s.setReg vf (collisionFlag drawn.2) with fb := drawn.1, dirty := true }.advance

/-- `Dxyn` DRW (R96): read the whole sprite first (`ADDRESS_OUT_OF_RANGE`), then, under `EDGE_POLICY = fault`, check its
pixels (`DRAW_OUT_OF_RANGE`, info the instruction word, log 9), then draw. `V[x]`, `V[y]` and `I` are read before `VF` is touched. -/
def execDrw (x y : RegIx) (n : Fin 16) (s : State) : Host.Outcome State Fault Refusal :=
  .next <|
    match s.spriteRows n with
    | .error a => s.raise .addressOutOfRange (BitVec.ofNat 16 a)
    | .ok rows =>
      if (s.spriteAt x y rows).any offGrid && s.params.edge == .fault then
        s.raise .drawOutOfRange (encode (.drw x y n))
      else s.drawPixels (s.spriteAt x y rows)

end Sys2Proof.Machine
end

