-- ==== Sys2Proof/Machine/Flow.lean ====
section
/-! DEFINITION. The meanings of the control transfers: RET (R100), JP (R101), CALL (R102), JP V0 (R103). -/

namespace Sys2Proof.Machine

/-- `00EE` RET: `STACK_UNDERFLOW(PC)` on an empty stack, else `PC <- STACK[SP - 1] + 2`, `SP <- SP - 1` (R100). -/
def execRet (s : State) : Host.Outcome State Fault Refusal :=
  .next <|
    match s.pop with
    | none => s.raise .stackUnderflow s.pc
    | some (addr, t) => (t.setPc addr).advance

/-- `1nnn` JP: `PC <- zext_16(nnn)` (R101). -/
def execJp (nnn : Imm12) (s : State) : Host.Outcome State Fault Refusal := .next (s.setPc (zextImm nnn))

/-- `2nnn` CALL: `STACK_OVERFLOW(PC)` when 16 addresses are held, else push the address of this instruction and jump
(R102). -/
def execCall (nnn : Imm12) (s : State) : Host.Outcome State Fault Refusal :=
  .next <|
    match s.push s.pc with
    | none => s.raise .stackOverflow s.pc
    | some t => t.setPc (zextImm nnn)

/-- `Bnnn` JP V0: `PC <- zext_16(nnn) + zext_16(V[0])` (R103). -/
def execJpV0 (nnn : Imm12) (s : State) : Host.Outcome State Fault Refusal := .next (s.setPc (s.offsetTarget nnn))

end Sys2Proof.Machine
end

