-- ==== Sys2Proof/Machine/FxBaseline.lean ====
section
/-! DEFINITION. The five baseline no-ops Fx0A, Fx29, Fx33, Fx55, Fx65: `PC <- PC + 2` and nothing else; `x` is decoded and
ignored (R133 to R138). -/

namespace Sys2Proof.Machine

/-- `Fx0A` LD Vx, K: no wait, no key read (R133). -/
def execLdVxK (_x : RegIx) (s : State) : Host.Outcome State Fault Refusal := .next s.advance

/-- `Fx29` LD F, Vx: `I` is not changed (R134). -/
def execLdF (_x : RegIx) (s : State) : Host.Outcome State Fault Refusal := .next s.advance

/-- `Fx33` LD B, Vx: memory is not written, no address check (R135). -/
def execLdB (_x : RegIx) (s : State) : Host.Outcome State Fault Refusal := .next s.advance

/-- `Fx55` LD [I], Vx: memory and `I` are not changed, no address check (R136). -/
def execLdMemVx (_x : RegIx) (s : State) : Host.Outcome State Fault Refusal := .next s.advance

/-- `Fx65` LD Vx, [I]: no register and not `I` is changed, no address check (R137). -/
def execLdVxMem (_x : RegIx) (s : State) : Host.Outcome State Fault Refusal := .next s.advance

end Sys2Proof.Machine
end

