-- ==== Sys2Proof/Machine/LoadImm.lean ====
section
/-! DEFINITION. The meanings of the immediate loads and the random byte: LD, ADD, LD I, RND (R112 to R115). -/

namespace Sys2Proof.Machine

/-- `6xkk` LD: `V[x] <- kk` (R112). -/
def execLdImm (x : RegIx) (kk : Byte) (s : State) : Host.Outcome State Fault Refusal := .next (s.setReg x kk).advance

/-- `7xkk` ADD: `V[x] <- (V[x] + kk) mod 256`, no flag (R113). -/
def execAddImm (x : RegIx) (kk : Byte) (s : State) : Host.Outcome State Fault Refusal :=
  .next (s.setReg x (s.reg x + kk)).advance

/-- `Annn` LD I: `I <- zext_16(nnn)` (R114). -/
def execLdI (nnn : Imm12) (s : State) : Host.Outcome State Fault Refusal := .next (s.setI (zextImm nnn)).advance

/-- `Cxkk` RND: `V[x] <- rnd & kk`, `rnd` the free input of the cycle (R115, R82). -/
def execRnd (x : RegIx) (kk : Byte) (s : State) : Host.Outcome State Fault Refusal :=
  .next (s.setReg x (s.ports.rnd &&& kk)).advance

end Sys2Proof.Machine
end

