-- ==== Sys2Proof/Machine/Skip.lean ====
section
/-! DEFINITION. The meanings of the conditional skips: SE, SNE, SKP, SKNP (R105 to R111). -/

namespace Sys2Proof.Machine

/-- `3xkk` SE: skip if `V[x] == kk` (R105). -/
def execSeImm (x : RegIx) (kk : Byte) (s : State) : Host.Outcome State Fault Refusal := .next (s.skipIf (s.reg x == kk))

/-- `4xkk` SNE: skip if `V[x] != kk` (R106). -/
def execSneImm (x : RegIx) (kk : Byte) (s : State) : Host.Outcome State Fault Refusal := .next (s.skipIf (s.reg x != kk))

/-- `5xy0` SE: skip if `V[x] == V[y]` (R107). -/
def execSeReg (x y : RegIx) (s : State) : Host.Outcome State Fault Refusal := .next (s.skipIf (s.reg x == s.reg y))

/-- `9xy0` SNE: skip if `V[x] != V[y]` (R108). -/
def execSneReg (x y : RegIx) (s : State) : Host.Outcome State Fault Refusal := .next (s.skipIf (s.reg x != s.reg y))

/-- A skip on the key numbered by `V[x]`: taken when the key is as `down` says; `KEY_INDEX_OUT_OF_RANGE(V[x])` above 15
(R109, R110, R146). -/
def State.skipOnKey (s : State) (x : RegIx) (down : Bool) : State :=
  match s.keyOf x with
  | none => s.raise .keyIndexOutOfRange (zextByte (s.reg x))
  | some pressed => s.skipIf (pressed == down)

/-- `Ex9E` SKP: skip if key `V[x]` is down (R109). -/
def execSkp (x : RegIx) (s : State) : Host.Outcome State Fault Refusal := .next (s.skipOnKey x true)

/-- `ExA1` SKNP: skip if key `V[x]` is not down (R110). -/
def execSknp (x : RegIx) (s : State) : Host.Outcome State Fault Refusal := .next (s.skipOnKey x false)

end Sys2Proof.Machine
end

