-- ==== Sys2Proof/Machine/TimerIndex.lean ====
section
/-! DEFINITION. The meanings of the timer moves and the index addition: Fx07, Fx15, Fx18, Fx1E (R128 to R131). The tick of
the same cycle follows them (R87, in Cycle). -/

namespace Sys2Proof.Machine

/-- `Fx07` LD Vx, DT: `V[x] <- DT`, read before the tick (R128). -/
def execLdVxDt (x : RegIx) (s : State) : Host.Outcome State Fault Refusal := .next (s.setReg x s.dt).advance

/-- `Fx15` LD DT, Vx: `DT <- V[x]` (R129). -/
def execLdDtVx (x : RegIx) (s : State) : Host.Outcome State Fault Refusal := .next (s.setDt (s.reg x)).advance

/-- `Fx18` LD ST, Vx: `ST <- V[x]` (R130). -/
def execLdStVx (x : RegIx) (s : State) : Host.Outcome State Fault Refusal := .next (s.setSt (s.reg x)).advance

/-- `Fx1E` ADD I, Vx: `I <- (I + zext_16(V[x])) mod 65536`, no flag (R131). -/
def execAddI (x : RegIx) (s : State) : Host.Outcome State Fault Refusal := .next (s.setI (s.i + zextByte (s.reg x))).advance

end Sys2Proof.Machine
end

