-- ==== Sys2Proof/Machine/Cycle.lean ====
section
/-! DEFINITION. The `Cycle` transaction (R80, R86): fetch, decode, execute, tick, status and tone, halt. -/

namespace Sys2Proof.Machine

/-- `Fetch()` (R81): the big-endian word at `PC`, or the lowest address out of range (`PC`, or 4096 for `PC = 4095`). -/
def State.fetch (s : State) : Except Nat Word :=
  match s.memRead s.pc.toNat with
  | none => .error s.pc.toNat
  | some hi =>
    match s.memRead (s.pc.toNat + 1) with
    | none => .error (s.pc.toNat + 1)
    | some lo => .ok (wordOfBytes hi lo)

/-- One timer's share of the tick: down by 1, floor at zero (R87). -/
def countDown (t : Byte) : Byte := if t = 0 then 0 else t - 1

/-- `Tick()`: both timers count down (R87). -/
def State.tick (s : State) : State := { s with dt := countDown s.dt, st := countDown s.st }

/-- The tone of a tick: 1 iff it finds `ST = 1` (R87, R88). -/
def State.toneDue (s : State) : Bool := s.st == 1

/-- The end of a cycle that was not halted on entry: after a fatal condition the latched status and no tick (R91), else the
tick, its tone and the status given (R86). -/
def State.close (s : State) (status : Status) : State :=
  if s.halted then s.report s.halt false else s.tick.report status s.toneDue

/-- Decode and execute a fetched word (R83 to R85). An unrecognized word changes nothing and reports
`(UNKNOWN_OPCODE, word)` after the tick (R85). -/
def State.runWord (s : State) (w : Word) : Host.Outcome State Fault Refusal :=
  match decode w with
  | none => .next (s.close ⟨.unknownOpcode, w⟩)
  | some i =>
    match exec i s with
    | .next t => .next (t.close ⟨.ok, 0⟩)
    | .fault r => .fault r
    | .refused r => .refused r

/-- `Cycle(rnd)` (R80, R86). On a halted machine nothing happens and the latched status is returned (R90). -/
def cycle (rnd : Byte) (s : State) : Host.Outcome State Fault Refusal :=
  if s.halted then .next ((s.invoke rnd).report s.halt false)
  else
    match s.fetch with
    | .error a => .next (((s.invoke rnd).raise .addressOutOfRange (BitVec.ofNat 16 a)).close ⟨.ok, 0⟩)
    | .ok w => (s.invoke rnd).runWord w

/-- Where the next instruction is fetched: the bytes of a word stored at `PC` and `PC + 1`, if both addresses exist. -/
def State.storeAtPc (s : State) (w : Word) : State :=
  if s.pc.toNat + 1 < Config.memSize then s.memWrites s.pc.toNat [highByte w, lowByte w] else s

end Sys2Proof.Machine
end

