-- ==== Sys2Proof/Machine/Step.lean ====
section
/-! DEFINITION. One step of the machine: one `Cycle` (R80) whose random byte is the free value of its turn (R82, log 1). -/

namespace Sys2Proof.Machine

/-- One `Cycle`, its `rnd` input drawn from the free sequence `Config.randomByte` (R82, log 1). -/
def step (s : State) : Host.Outcome State Fault Refusal := cycle (Config.randomByte s.ports.draws) s

/-- The state with an instruction's word stored where `step` fetches next (`PC`, high byte first); it stands for the image
load that puts a program into memory (R160, log 13). -/
def State.withFetchWord (s : State) (nbits w : Nat) : State := s.storeAtPc (tableWord nbits w)

end Sys2Proof.Machine
end

