-- ==== Sys2Proof/Machine/HostOps.lean ====
section
/-! DEFINITION. The host operations, which act only between cycles (R165, R167): `Reset`, `LoadImage`, `SetKey`, `Snapshot`,
`IsDirty`, `ClearDirty`, and `Cycle` with its random byte. -/

namespace Sys2Proof.Machine

/-- `Reset()`: every element at its reset value (R35, R170). The parameters stay, and the free sequence of random bytes goes
on (log 14). -/
def hostReset (s : State) : State :=
  { State.reset with params := s.params, ports := { State.reset.ports with draws := s.ports.draws } }

/-- `LoadImage(bytes)`: the bytes verbatim from 0x200 on (R160), or the whole image rejected and `HALT <- (7, 0)` when it is
longer than 3584 bytes (R148). Outside its window it has no move (R160, R57). -/
def loadImage (bytes : List Byte) (s : State) : Host.Outcome State Fault Refusal :=
  if s.ports.loadable then
    .next <|
      if bytes.length ≤ Config.imageMax then
        { s.memWrites Config.progBase bytes with ports := { s.ports with status := ⟨.ok, 0⟩, loadable := false } }
      else
        { s.raise .imageTooLarge 0 with ports := { s.ports with status := ⟨.imageTooLarge, 0⟩, loadable := false } }
  else .refused .loadImageOutsideWindow

/-- `SetKey(k, pressed)`: `KEY[k] <- pressed`, nothing else (R161). -/
def setKey (k : Fin 16) (pressed : Bool) (s : State) : State := { s with key := s.key.set k pressed }

/-- `Snapshot()`: the 2048 cells, row-major, index `64 * r + c` (R162). It changes nothing. -/
def snapshot (s : State) : List Bool :=
  (List.finRange 32).flatMap (fun r => (List.finRange 64).map (fun c => fbGet s.fb (r, c)))

/-- `IsDirty()` returns `DIRTY` (R162). It changes nothing. -/
def isDirty (s : State) : Bool := s.dirty

/-- `ClearDirty()`: `DIRTY <- 0`, nothing else (R162). -/
def clearDirty (s : State) : State := { s with dirty := false }

/-- The moves of the host (R165, R167). A key is named by a 4-bit index, so no other index can be given (R161). -/
inductive HostOp where
  | reset
  | loadImage (bytes : List Byte)
  | cycle (rnd : Byte)
  | setKey (k : Fin 16) (pressed : Bool)
  | snapshot
  | isDirty
  | clearDirty
deriving DecidableEq, Repr

/-- One host operation (R165): atomic, and the only way anything happens to the machine. -/
def hostStep (op : HostOp) (s : State) : Host.Outcome State Fault Refusal :=
  match op with
  | .reset => .next (hostReset s)
  | .loadImage bytes => loadImage bytes s
  | .cycle rnd => cycle rnd s
  | .setKey k pressed => .next (setKey k pressed s)
  | .snapshot => .next s
  | .isDirty => .next s
  | .clearDirty => .next (clearDirty s)

/-- A sequence of host operations, stopping at the first that has no move. -/
def hostRun : List HostOp → State → Host.Outcome State Fault Refusal
  | [], s => .next s
  | op :: rest, s =>
    match hostStep op s with
    | .next t => hostRun rest t
    | .fault r => .fault r
    | .refused r => .refused r

end Sys2Proof.Machine
end

