-- ==== Sys2Proof/Safety.lean ====
section
/-! DEFINITION. The terms that claims are stated in: the invariant of every run (R37), finished and failed runs (R174), the
states a host can reach, the table of what each instruction may write (R36), and frames. -/

namespace Sys2Proof.Machine

/-- What holds in every reachable state (R37, and the `PC` bound R24 derives). -/
structure State.Inv (s : State) : Prop where
  /-- the memory list is in its canonical form (log 12) -/
  memForm : memWf s.params.font s.mem = true
  /-- nothing below 0x200 differs from the reset contents: the font stays, the reserved region stays 0 (R37, R41) -/
  memAbove : ∀ c ∈ s.mem, Config.progBase ≤ c.1
  /-- every held return address is a `PC` at which a fetch succeeded (R37) -/
  stackHeld : ∀ k : Fin 16, k.val < s.sp.val → (s.stack[k]).toNat ≤ 4094
  /-- `HALT.code` is 0 or one of the fatal codes (R37) -/
  haltCode : s.halt.code = .ok ∨ s.halt.code.fatal = true
  /-- no `PC` computation wraps: `PC` is at most 0x0FFF + 0xFF (R24) -/
  pcBound : s.pc.toNat ≤ 0x10FE

/-- The states the host can bring the machine to: from `Reset` by any moves (R165, R171). -/
inductive Reachable : State → Prop where
  | start : Reachable State.reset
  | move {s t : State} (op : HostOp) : Reachable s → hostStep op s = .next t → Reachable t

/-- A program has finished: `PC` addresses a word `1nnn` with `nnn = PC`, and `HALT.code = 0` (R174). -/
def State.finished (s : State) : Bool :=
  match s.fetch with
  | .error _ => false
  | .ok w => !s.halted && w == encNNN 0x1#4 (s.pc.setWidth 12)

/-- The instruction the next `Cycle` of a running machine executes; `none` when its fetch fails or its word is unrecognized
(R81, R83). -/
def State.fetched (s : State) : Option Instr :=
  match s.fetch with
  | .error _ => none
  | .ok w => decode w

/-- `DT` as the tick of the next `Cycle` finds it: what `LD DT, Vx` has just written, else what it was (R87). -/
def State.delayAtTick (s : State) : Byte :=
  match s.fetched with
  | some (.ldDtVx x) => s.reg x
  | _ => s.dt

/-- `ST` as the tick of the next `Cycle` finds it: what `LD ST, Vx` has just written, else what it was (R87). -/
def State.soundAtTick (s : State) : Byte :=
  match s.fetched with
  | some (.ldStVx x) => s.reg x
  | _ => s.st

/-- A failed run: `HALT.code != 0` (R174). -/
def State.failed (s : State) : Bool := s.halted

/-- The elements of state that instructions write besides `PC` (R20, R36). -/
inductive Element where
  | reg (k : RegIx)
  | index
  | stackEntry (k : Fin 16)
  | depth
  | delay
  | sound
  | framebuffer
  | dirtyFlag
  | keys
  | memory
deriving DecidableEq, Repr

/-- An element has the same value in two states. -/
def Element.same (e : Element) (s t : State) : Prop :=
  match e with
  | .reg k => t.reg k = s.reg k
  | .index => t.i = s.i
  | .stackEntry k => t.stack[k] = s.stack[k]
  | .depth => t.sp = s.sp
  | .delay => t.dt = s.dt
  | .sound => t.st = s.st
  | .framebuffer => t.fb = s.fb
  | .dirtyFlag => t.dirty = s.dirty
  | .keys => t.key = s.key
  | .memory => ∀ a, t.cell a = s.cell a

/-- The side-effect table (R36): what an instruction may write besides `PC`. `depth` is `SP` before the instruction, which
names the stack entry `CALL` writes. -/
def mayWrite (depth : Nat) : Instr → Element → Bool
  | .cls, e => e == .framebuffer || e == .dirtyFlag
  | .ret, e => e == .depth
  | .jp _, _ => false
  | .call _, .stackEntry k => k.val == depth
  | .call _, e => e == .depth
  | .seImm _ _, _ => false
  | .sneImm _ _, _ => false
  | .seReg _ _, _ => false
  | .ldImm x _, e => e == .reg x
  | .addImm x _, e => e == .reg x
  | .ldReg x _, e => e == .reg x
  | .orReg x _, e => e == .reg x
  | .andReg x _, e => e == .reg x
  | .xorReg x _, e => e == .reg x
  | .addReg x _, e => e == .reg vf || e == .reg x
  | .subReg x _, e => e == .reg vf || e == .reg x
  | .shr x _, e => e == .reg vf || e == .reg x
  | .subnReg x _, e => e == .reg vf || e == .reg x
  | .shl x _, e => e == .reg vf || e == .reg x
  | .sneReg _ _, _ => false
  | .ldI _, e => e == .index
  | .jpV0 _, _ => false
  | .rnd x _, e => e == .reg x
  | .drw _ _ _, e => e == .reg vf || e == .framebuffer || e == .dirtyFlag
  | .skp _, _ => false
  | .sknp _, _ => false
  | .ldVxDt x, e => e == .reg x
  | .ldVxK _, _ => false
  | .ldDtVx _, e => e == .delay
  | .ldStVx _, e => e == .sound
  | .addI _, e => e == .index
  | .ldF _, _ => false
  | .ldB _, _ => false
  | .ldMemVx _, _ => false
  | .ldVxMem _, _ => false

/-- A register as it stands after `VF` has received `flag` (R117). -/
def State.regAfterFlag (s : State) (flag : Byte) (z : RegIx) : Byte := if z = vf then flag else s.reg z

/-- Sprite bit `i` of row `j` of a `DRW`: `row[j] & (0x80 >> i) != 0`, the row the byte at `I + j` (R96). -/
def State.spriteBit (s : State) (j i : Nat) : Prop := s.cell (s.i.toNat + j) &&& (0x80#8 >>> i) ≠ 0#8

/-- The pixel at mathematical coordinates (col, row) lands on a cell under a policy (R97). -/
def landsOn (edge : EdgePolicy) (col row : Nat) (t : FbCell) : Prop :=
  (col ≤ 63 ∧ row ≤ 31 ∧ t.1.val = row ∧ t.2.val = col) ∨
  (edge = .wrap ∧ t.1.val = row % 32 ∧ t.2.val = col % 64)

/-- A `DRW Vx, Vy, n` toggles a cell: some set sprite bit lands on it (R96, R97). -/
def State.toggles (s : State) (x y : RegIx) (n : Fin 16) (t : FbCell) : Prop :=
  ∃ j i, j < n.val ∧ i < 8 ∧ s.spriteBit j i ∧ landsOn s.params.edge ((s.reg x).toNat + i) ((s.reg y).toNat + j) t

/-- A `DRW Vx, Vy, n` has a set sprite bit off the grid: column above 63 or row above 31 (R96 phase 2, R147). -/
def State.drawsOffGrid (s : State) (x y : RegIx) (n : Fin 16) : Prop :=
  ∃ j i, j < n.val ∧ i < 8 ∧ s.spriteBit j i ∧ (63 < (s.reg x).toNat + i ∨ 31 < (s.reg y).toNat + j)

/-- A `DRW` of `n` rows draws: its sprite lies in memory, and under `EDGE_POLICY = fault` no set bit is off the grid (R96). -/
def State.drawable (s : State) (x y : RegIx) (n : Fin 16) : Prop :=
  (n.val = 0 ∨ s.i.toNat + n.val ≤ 4096) ∧ (s.params.edge = .fault → ¬ s.drawsOffGrid x y n)

/-- Two states agree on every element but those `written` names, and on `HALT`, the ports and the parameters; `PC` is not
spoken of. Memory is compared through the read of one byte. -/
def FrameBut (written : Element → Bool) (s t : State) : Prop :=
  (∀ e, written e = false → e.same s t) ∧ t.halt = s.halt ∧ t.ports = s.ports ∧ t.params = s.params

/-- The frame of an instruction that writes nothing but `PC`. -/
def FramePcOnly (s t : State) : Prop := FrameBut (fun _ => false) s t

/-- The frame of an instruction that writes the registers listed, and `PC`. -/
def FrameRegs (xs : List RegIx) (s t : State) : Prop :=
  FrameBut (fun e => xs.any (fun x => e == .reg x)) s t

end Sys2Proof.Machine
end

