-- ==== Sys2Proof/Certificates/Slice0/Obligations.lean ====
section
/-! DEFINITION. The statements for the provers, from the numbered rules of the spec. A statement about an instruction gives
its word, its result and its frame; `∃ t, exec i s = .next t ∧ …` says that it completes. The random byte a cycle is given is
read from `ports.rnd` (log 1), the status and the tone it returns from `ports.status` and `ports.tone` (log 4): these places
are the model's, no statement rests on their reset values. -/

open Sys2Proof Sys2Proof.Machine

/-! ### Encoding (30_encoding.md) -/

/-- Decoding the word of any instruction gives it back, with every operand, and on bytes leaves the bytes after it alone
(30_encoding.md sections 1 and 2). That the ignored `y` of SHR and SHL is such an operand is the model's choice (log 10). -/
def Obligations.EveryInstructionDecodesFromItsWord : Prop :=
  ∀ i : Instr, decode (encode i) = some i ∧
    ∀ rest : List Byte, decodeBytes (encodeBytes i ++ rest) = .ok (i, rest)

/-- A word that decodes to a term of the syntax is that term's word. For SHR and SHL this rests on the model's choice (log 10)
to keep the ignored `y` in the syntax: to the spec the 16 words that differ in `y` alone are one instruction (R69), and
`Obligations.ShiftsIgnoreY` says that they act as one. -/
def Obligations.EveryRecognizedWordReencodes : Prop :=
  ∀ (w : Word) (i : Instr), decode w = some i → encode i = w

/-- R66: a word is the instruction of a row iff `w & mask == match`; there are 34 rows and no word matches two. -/
def Obligations.RowSelectsExactlyItsInstruction : Prop :=
  opcodeMap.length = 34 ∧
  (∀ (w : Word) (r : Fin 34),
    (opcodeMap[r.val]?.map (fun row => row.selects w) = some true ↔ ∃ i, decode w = some i ∧ i.rowIndex = r)) ∧
  ∀ (w : Word) (r q : Fin 34), opcodeMap[r.val]?.map (fun row => row.selects w) = some true →
    opcodeMap[q.val]?.map (fun row => row.selects w) = some true → r = q

/-- R65: the secondary decode of families 0, 5, 8, 9, E and F, with everything else unrecognized. -/
def Obligations.SecondaryDecodeByFamily : Prop :=
  ∀ w : Word,
    (opField w = 0x0#4 → decode w = if w = 0x00E0#16 then some .cls else if w = 0x00EE#16 then some .ret else none) ∧
    (opField w = 0x5#4 → decode w = if (nField w).toNat = 0 then some (.seReg (xField w) (yField w)) else none) ∧
    (opField w = 0x9#4 → decode w = if (nField w).toNat = 0 then some (.sneReg (xField w) (yField w)) else none) ∧
    (opField w = 0x8#4 → decode w =
      match (nField w).toNat with
      | 0x0 => some (.ldReg (xField w) (yField w))
      | 0x1 => some (.orReg (xField w) (yField w))
      | 0x2 => some (.andReg (xField w) (yField w))
      | 0x3 => some (.xorReg (xField w) (yField w))
      | 0x4 => some (.addReg (xField w) (yField w))
      | 0x5 => some (.subReg (xField w) (yField w))
      | 0x6 => some (.shr (xField w) (yField w))
      | 0x7 => some (.subnReg (xField w) (yField w))
      | 0xE => some (.shl (xField w) (yField w))
      | _ => none) ∧
    (opField w = 0xE#4 → decode w =
      if (kkField w).toNat = 0x9E then some (.skp (xField w))
      else if (kkField w).toNat = 0xA1 then some (.sknp (xField w))
      else none) ∧
    (opField w = 0xF#4 → decode w =
      if (kkField w).toNat = 0x07 then some (.ldVxDt (xField w))
      else if (kkField w).toNat = 0x0A then some (.ldVxK (xField w))
      else if (kkField w).toNat = 0x15 then some (.ldDtVx (xField w))
      else if (kkField w).toNat = 0x18 then some (.ldStVx (xField w))
      else if (kkField w).toNat = 0x1E then some (.addI (xField w))
      else if (kkField w).toNat = 0x29 then some (.ldF (xField w))
      else if (kkField w).toNat = 0x33 then some (.ldB (xField w))
      else if (kkField w).toNat = 0x55 then some (.ldMemVx (xField w))
      else if (kkField w).toNat = 0x65 then some (.ldVxMem (xField w))
      else none)

/-- A few words written out from the patterns of the opcode map decode to the instructions they stand for. -/
def Obligations.WrittenOutWordsDecode : Prop :=
  decode 0x00E0 = some .cls ∧ decode 0x2210 = some (.call 0x210) ∧ decode 0x3A42 = some (.seImm 10 0x42) ∧
  decode 0x7102 = some (.addImm 1 0x02) ∧ decode 0x812E = some (.shl 1 2) ∧ decode 0xD123 = some (.drw 1 2 3) ∧
  decode 0xE19E = some (.skp 1) ∧ decode 0xF31E = some (.addI 3) ∧ decode 0xF465 = some (.ldVxMem 4) ∧
  decode 0xFFFF = none

/-- R69, for SHR and SHL: all 16 values of `y` decode to the same operation on `Vx`. -/
def Obligations.ShiftsIgnoreY : Prop :=
  ∀ (x y z : RegIx) (s : State),
    decode (encXYN 0x8#4 x y 0x6#4) = some (.shr x y) ∧ exec (.shr x y) s = exec (.shr x z) s ∧
    decode (encXYN 0x8#4 x y 0xE#4) = some (.shl x y) ∧ exec (.shl x y) s = exec (.shl x z) s

/-! ### Display (41_display.md) -/

/-- R95: CLS turns every cell off and sets DIRTY. -/
def Obligations.ClsClearsTheGrid : Prop :=
  decode 0x00E0 = some .cls ∧
  ∀ s : State, ∃ t, exec .cls s = .next t ∧
    (∀ c, fbGet t.fb c = false) ∧ t.dirty = true ∧ t.pc = s.pc + 2 ∧
    FrameBut (fun e => e == .framebuffer || e == .dirtyFlag) s t

/-- R96, R97: DRW raises ADDRESS_OUT_OF_RANGE if its sprite leaves memory, then DRAW_OUT_OF_RANGE if EDGE_POLICY is fault and
a set bit is off the grid, both with no other change; else it toggles exactly the cells its set bits land on, and VF says
whether one of them was on. It holds for every value of EDGE_POLICY. -/
def Obligations.DrwFollowsItsRule : Prop :=
  (∀ x y n : RegIx, decode (encXYN 0xD#4 x y (BitVec.ofFin n)) = some (.drw x y n)) ∧
  ∀ (s : State) (x y : RegIx) (n : Fin 16),
    (n.val ≠ 0 → 4095 < s.i.toNat + n.val - 1 → exec (.drw x y n) s =
      .next { s with halt := ⟨.addressOutOfRange, if 4095 < s.i.toNat then s.i else 0x1000⟩ }) ∧
    ((n.val = 0 ∨ s.i.toNat + n.val - 1 ≤ 4095) → s.params.edge = .fault → s.drawsOffGrid x y n →
      exec (.drw x y n) s = .next { s with halt := ⟨.drawOutOfRange, encXYN 0xD#4 x y (BitVec.ofFin n)⟩ }) ∧
    (s.drawable x y n → ∃ t, exec (.drw x y n) s = .next t ∧
      (∀ c, s.toggles x y n c → fbGet t.fb c = !fbGet s.fb c) ∧
      (∀ c, ¬ s.toggles x y n c → fbGet t.fb c = fbGet s.fb c) ∧
      ((∃ c, s.toggles x y n c ∧ fbGet s.fb c = true) → t.reg vf = 1) ∧
      ((∀ c, s.toggles x y n c → fbGet s.fb c = false) → t.reg vf = 0) ∧
      t.dirty = true ∧ t.pc = s.pc + 2 ∧
      FrameBut (fun e => e == .reg vf || e == .framebuffer || e == .dirtyFlag) s t)

/-- R97: the three policies agree on a sprite all of whose set bits are on the grid. -/
def Obligations.PoliciesAgreeOnTheGrid : Prop :=
  ∀ (s : State) (x y : RegIx) (n : Fin 16) (e : EdgePolicy), ¬ s.drawsOffGrid x y n →
    ∀ t, exec (.drw x y n) s = .next t →
      exec (.drw x y n) { s with params := { s.params with edge := e } } =
        .next { t with params := { s.params with edge := e } }

/-- R98 (a): a DRW that draws on a cleared framebuffer reports no collision. -/
def Obligations.ClearedGridNeverCollides : Prop :=
  ∀ (s t : State) (x y : RegIx) (n : Fin 16), exec .cls s = .next t → t.drawable x y n →
    ∃ u, exec (.drw x y n) t = .next u ∧ u.reg vf = 0

/-- R98 (b): drawing the same sprite twice restores the framebuffer; the second draw collides iff some cell it toggles was
off before the first. `x` and `y` are not 15, so the first draw leaves the coordinates alone. -/
def Obligations.DrawingTwiceRestores : Prop :=
  ∀ (s : State) (x y : RegIx) (n : Fin 16), x ≠ vf → y ≠ vf → s.drawable x y n →
    ∃ t u, exec (.drw x y n) s = .next t ∧ exec (.drw x y n) t = .next u ∧ u.fb = s.fb ∧
      (u.reg vf = 1 ↔ ∃ c, s.toggles x y n c ∧ fbGet s.fb c = false)

/-! ### Control transfer (42_flow.md) -/

/-- R100: RET pops the address of the CALL and resumes after it; on an empty stack STACK_UNDERFLOW, nothing else changed. -/
def Obligations.RetResumesAfterTheCall : Prop :=
  decode 0x00EE = some .ret ∧
  ∀ s : State,
    (s.sp.val = 0 → exec .ret s = .next { s with halt := ⟨.stackUnderflow, s.pc⟩ }) ∧
    (∀ k : Fin 16, s.sp.val = k.val + 1 → ∃ t, exec .ret s = .next t ∧
      t.pc = s.stack[k] + 2 ∧ t.sp.val = k.val ∧ FrameBut (fun e => e == .depth) s t)

/-- R101: JP sets PC to nnn and nothing else. -/
def Obligations.JpSetsPc : Prop :=
  ∀ nnn : Imm12, decode (encNNN 0x1#4 nnn) = some (.jp nnn) ∧
  ∀ s : State, ∃ t, exec (.jp nnn) s = .next t ∧ t.pc.toNat = nnn.toNat ∧ FramePcOnly s t

/-- R102: CALL pushes its own address and jumps; at depth 16 STACK_OVERFLOW, nothing else changed. -/
def Obligations.CallPushesItsOwnAddress : Prop :=
  ∀ nnn : Imm12, decode (encNNN 0x2#4 nnn) = some (.call nnn) ∧
  ∀ s : State,
    (s.sp.val = 16 → exec (.call nnn) s = .next { s with halt := ⟨.stackOverflow, s.pc⟩ }) ∧
    (∀ k : Fin 16, s.sp.val = k.val → ∃ t, exec (.call nnn) s = .next t ∧
      t.stack[k] = s.pc ∧ t.sp.val = k.val + 1 ∧ t.pc.toNat = nnn.toNat ∧
      FrameBut (fun e => e == .depth || e == .stackEntry k) s t)

/-- R103: JP V0 sets PC to the exact sum of nnn and V0, which never wraps and is not reduced modulo 4096. -/
def Obligations.JpV0AddsRegisterZero : Prop :=
  ∀ nnn : Imm12, decode (encNNN 0xB#4 nnn) = some (.jpV0 nnn) ∧
  ∀ s : State, ∃ t, exec (.jpV0 nnn) s = .next t ∧ t.pc.toNat = nnn.toNat + (s.reg 0).toNat ∧ FramePcOnly s t

/-- R104: a RET executed one deeper than a CALL that had room, with the entry the CALL pushed still in place, leaves PC after
the CALL and the depth as it was before it. -/
def Obligations.CallThenRetRestoresDepth : Prop :=
  ∀ (s : State) (nnn : Imm12) (d : Fin 16), s.sp.val = d.val →
    ∃ t, exec (.call nnn) s = .next t ∧
      ∀ u : State, u.sp.val = d.val + 1 → u.stack[d] = t.stack[d] →
        ∃ r, exec .ret u = .next r ∧ r.pc = s.pc + 2 ∧ r.sp = s.sp

/-! ### Skips (43_skip.md) -/

/-- R105, R106: SE and SNE with an immediate. -/
def Obligations.SkipsOnImmediate : Prop :=
  ∀ (x : RegIx) (kk : Byte),
    decode (encXKK 0x3#4 x kk) = some (.seImm x kk) ∧ decode (encXKK 0x4#4 x kk) = some (.sneImm x kk) ∧
    ∀ s : State,
      (∃ t, exec (.seImm x kk) s = .next t ∧
        t.pc = (if s.reg x = kk then s.pc + 4 else s.pc + 2) ∧ FramePcOnly s t) ∧
      (∃ t, exec (.sneImm x kk) s = .next t ∧
        t.pc = (if s.reg x = kk then s.pc + 2 else s.pc + 4) ∧ FramePcOnly s t)

/-- R107, R108: SE and SNE with two registers. -/
def Obligations.SkipsOnRegisters : Prop :=
  ∀ x y : RegIx,
    decode (encXYN 0x5#4 x y 0x0#4) = some (.seReg x y) ∧ decode (encXYN 0x9#4 x y 0x0#4) = some (.sneReg x y) ∧
    ∀ s : State,
      (∃ t, exec (.seReg x y) s = .next t ∧
        t.pc = (if s.reg x = s.reg y then s.pc + 4 else s.pc + 2) ∧ FramePcOnly s t) ∧
      (∃ t, exec (.sneReg x y) s = .next t ∧
        t.pc = (if s.reg x = s.reg y then s.pc + 2 else s.pc + 4) ∧ FramePcOnly s t)

/-- R109, R110: SKP and SKNP on the key numbered by the value of Vx; above 15 KEY_INDEX_OUT_OF_RANGE, nothing else changed. -/
def Obligations.SkipsOnKey : Prop :=
  ∀ x : RegIx,
    decode (encXKK 0xE#4 x 0x9E#8) = some (.skp x) ∧ decode (encXKK 0xE#4 x 0xA1#8) = some (.sknp x) ∧
    ∀ s : State,
      (∀ k : Fin 16, (s.reg x).toNat = k.val →
        (∃ t, exec (.skp x) s = .next t ∧
          t.pc = (if s.key[k] = true then s.pc + 4 else s.pc + 2) ∧ FramePcOnly s t) ∧
        (∃ t, exec (.sknp x) s = .next t ∧
          t.pc = (if s.key[k] = true then s.pc + 2 else s.pc + 4) ∧ FramePcOnly s t)) ∧
      (15 < (s.reg x).toNat →
        exec (.skp x) s = .next { s with halt := ⟨.keyIndexOutOfRange, BitVec.ofNat 16 (s.reg x).toNat⟩ } ∧
        exec (.sknp x) s = .next { s with halt := ⟨.keyIndexOutOfRange, BitVec.ofNat 16 (s.reg x).toNat⟩ })

/-! ### Immediate loads and the random byte (44_load_imm.md) -/

/-- R112: LD Vx, kk. -/
def Obligations.LdImmLoadsTheByte : Prop :=
  ∀ (x : RegIx) (kk : Byte), decode (encXKK 0x6#4 x kk) = some (.ldImm x kk) ∧
  ∀ s : State, ∃ t, exec (.ldImm x kk) s = .next t ∧ t.reg x = kk ∧ t.pc = s.pc + 2 ∧ FrameRegs [x] s t

/-- R113: ADD Vx, kk adds modulo 256 and writes no flag. -/
def Obligations.AddImmAddsWithoutFlag : Prop :=
  ∀ (x : RegIx) (kk : Byte), decode (encXKK 0x7#4 x kk) = some (.addImm x kk) ∧
  ∀ s : State, ∃ t, exec (.addImm x kk) s = .next t ∧
    (t.reg x).toNat = ((s.reg x).toNat + kk.toNat) % 256 ∧ t.pc = s.pc + 2 ∧ FrameRegs [x] s t

/-- R114: LD I, nnn. -/
def Obligations.LdILoadsTheIndex : Prop :=
  ∀ nnn : Imm12, decode (encNNN 0xA#4 nnn) = some (.ldI nnn) ∧
  ∀ s : State, ∃ t, exec (.ldI nnn) s = .next t ∧ t.i.toNat = nnn.toNat ∧ t.pc = s.pc + 2 ∧
    FrameBut (fun e => e == .index) s t

/-- R115: RND writes the random byte of the cycle masked by kk; whatever that byte is, a bit that is 0 in kk is 0 in Vx. -/
def Obligations.RndMasksTheRandomByte : Prop :=
  ∀ (x : RegIx) (kk : Byte), decode (encXKK 0xC#4 x kk) = some (.rnd x kk) ∧
  ∀ s : State, ∃ t, exec (.rnd x kk) s = .next t ∧
    t.reg x = s.ports.rnd &&& kk ∧ (∀ b, kk.getLsbD b = false → (t.reg x).getLsbD b = false) ∧
    (kk = 0x00 → t.reg x = 0x00) ∧ (kk = 0xFF → t.reg x = s.ports.rnd) ∧ t.pc = s.pc + 2 ∧ FrameRegs [x] s t

/-! ### Register-to-register operations (45_alu.md) -/

/-- R118: LD Vx, Vy. -/
def Obligations.LdRegCopies : Prop :=
  ∀ x y : RegIx, decode (encXYN 0x8#4 x y 0x0#4) = some (.ldReg x y) ∧
  ∀ s : State, ∃ t, exec (.ldReg x y) s = .next t ∧ t.reg x = s.reg y ∧ t.pc = s.pc + 2 ∧ FrameRegs [x] s t

/-- R119, R120, R121: OR, AND and XOR work bit by bit and write no flag. -/
def Obligations.BitwiseOperationsWriteNoFlag : Prop :=
  ∀ x y : RegIx,
    decode (encXYN 0x8#4 x y 0x1#4) = some (.orReg x y) ∧ decode (encXYN 0x8#4 x y 0x2#4) = some (.andReg x y) ∧
    decode (encXYN 0x8#4 x y 0x3#4) = some (.xorReg x y) ∧
    ∀ s : State,
      (∃ t, exec (.orReg x y) s = .next t ∧
        (∀ b, (t.reg x).getLsbD b = ((s.reg x).getLsbD b || (s.reg y).getLsbD b)) ∧ t.pc = s.pc + 2 ∧
        FrameRegs [x] s t) ∧
      (∃ t, exec (.andReg x y) s = .next t ∧
        (∀ b, (t.reg x).getLsbD b = ((s.reg x).getLsbD b && (s.reg y).getLsbD b)) ∧ t.pc = s.pc + 2 ∧
        FrameRegs [x] s t) ∧
      (∃ t, exec (.xorReg x y) s = .next t ∧
        (∀ b, (t.reg x).getLsbD b = ((s.reg x).getLsbD b != (s.reg y).getLsbD b)) ∧ t.pc = s.pc + 2 ∧
        FrameRegs [x] s t)

/-- R122: ADD writes VF first, 1 iff V[y] > 255 - V[x], then adds the registers as they then stand. -/
def Obligations.AddRegFlagThenSum : Prop :=
  ∀ x y : RegIx, decode (encXYN 0x8#4 x y 0x4#4) = some (.addReg x y) ∧
  ∀ (s : State) (f : Byte), f = (if (s.reg y).toNat > 255 - (s.reg x).toNat then 1 else 0) →
    ∃ t, exec (.addReg x y) s = .next t ∧ (x ≠ vf → t.reg vf = f) ∧
      (t.reg x).toNat = ((s.regAfterFlag f x).toNat + (s.regAfterFlag f y).toNat) % 256 ∧
      t.pc = s.pc + 2 ∧ FrameRegs [vf, x] s t

/-- R123: SUB writes VF first, 0 iff V[y] > 255 - V[x], then subtracts the registers as they then stand. -/
def Obligations.SubRegFlagThenDifference : Prop :=
  ∀ x y : RegIx, decode (encXYN 0x8#4 x y 0x5#4) = some (.subReg x y) ∧
  ∀ (s : State) (f : Byte), f = (if (s.reg y).toNat > 255 - (s.reg x).toNat then 0 else 1) →
    ∃ t, exec (.subReg x y) s = .next t ∧ (x ≠ vf → t.reg vf = f) ∧
      (t.reg x).toNat = ((s.regAfterFlag f x).toNat + 256 - (s.regAfterFlag f y).toNat) % 256 ∧
      t.pc = s.pc + 2 ∧ FrameRegs [vf, x] s t

/-- R124: SHR writes VF first, the low bit, then halves the register as it then stands; Vy plays no part. -/
def Obligations.ShrFlagThenHalf : Prop :=
  ∀ x y : RegIx, decode (encXYN 0x8#4 x y 0x6#4) = some (.shr x y) ∧
  ∀ (s : State) (f : Byte), f.toNat = (s.reg x).toNat % 2 →
    ∃ t, exec (.shr x y) s = .next t ∧ (x ≠ vf → t.reg vf = f) ∧
      (t.reg x).toNat = (s.regAfterFlag f x).toNat / 2 ∧ t.pc = s.pc + 2 ∧ FrameRegs [vf, x] s t

/-- R125: SUBN writes VF by the test of SUB, then subtracts the other way round. -/
def Obligations.SubnRegFlagThenDifference : Prop :=
  ∀ x y : RegIx, decode (encXYN 0x8#4 x y 0x7#4) = some (.subnReg x y) ∧
  ∀ (s : State) (f : Byte), f = (if (s.reg y).toNat > 255 - (s.reg x).toNat then 0 else 1) →
    ∃ t, exec (.subnReg x y) s = .next t ∧ (x ≠ vf → t.reg vf = f) ∧
      (t.reg x).toNat = ((s.regAfterFlag f y).toNat + 256 - (s.regAfterFlag f x).toNat) % 256 ∧
      t.pc = s.pc + 2 ∧ FrameRegs [vf, x] s t

/-- R126: SHL writes VF first, the low three bits, then doubles the register as it then stands modulo 256. -/
def Obligations.ShlFlagThenDouble : Prop :=
  ∀ x y : RegIx, decode (encXYN 0x8#4 x y 0xE#4) = some (.shl x y) ∧
  ∀ (s : State) (f : Byte), f.toNat = (s.reg x).toNat % 8 →
    ∃ t, exec (.shl x y) s = .next t ∧ (x ≠ vf → t.reg vf = f) ∧
      (t.reg x).toNat = 2 * (s.regAfterFlag f x).toNat % 256 ∧ t.pc = s.pc + 2 ∧ FrameRegs [vf, x] s t

/-- R127: the laws of family 8 away from register 15. -/
def Obligations.AluLawsAwayFromVf : Prop :=
  ∀ (s : State) (x y : RegIx), x ≠ vf → y ≠ vf →
    (∃ t, exec (.addReg x y) s = .next t ∧ (t.reg x).toNat = ((s.reg x).toNat + (s.reg y).toNat) % 256 ∧
      (t.reg vf).toNat = if 256 ≤ (s.reg x).toNat + (s.reg y).toNat then 1 else 0) ∧
    (∃ t, exec (.subReg x y) s = .next t ∧ (t.reg x).toNat = ((s.reg x).toNat + 256 - (s.reg y).toNat) % 256 ∧
      (t.reg vf).toNat = if 256 ≤ (s.reg x).toNat + (s.reg y).toNat then 0 else 1) ∧
    (∃ t, exec (.subnReg x y) s = .next t ∧ (t.reg x).toNat = ((s.reg y).toNat + 256 - (s.reg x).toNat) % 256 ∧
      (t.reg vf).toNat = if 256 ≤ (s.reg x).toNat + (s.reg y).toNat then 0 else 1) ∧
    (∃ t, exec (.shr x y) s = .next t ∧ (t.reg x).toNat = (s.reg x).toNat / 2 ∧
      (t.reg vf).toNat = (s.reg x).toNat % 2) ∧
    (∃ t, exec (.shl x y) s = .next t ∧ (t.reg x).toNat = 2 * (s.reg x).toNat % 256 ∧
      (t.reg vf).toNat = (s.reg x).toNat % 8) ∧
    (∃ t, exec (.orReg x y) s = .next t ∧ t.reg x = s.reg x ||| s.reg y ∧ t.reg vf = s.reg vf) ∧
    (∃ t, exec (.andReg x y) s = .next t ∧ t.reg x = s.reg x &&& s.reg y ∧ t.reg vf = s.reg vf) ∧
    (∃ t, exec (.xorReg x y) s = .next t ∧ t.reg x = s.reg x ^^^ s.reg y ∧ t.reg vf = s.reg vf) ∧
    (∃ t, exec (.ldReg x y) s = .next t ∧ t.reg x = s.reg y ∧ t.reg vf = s.reg vf)

/-! ### Timers and index (46_timer_index.md) -/

/-- The effects of Fx07, Fx15 and Fx18 before the tick (46_timer_index.md). -/
def Obligations.TimerMoves : Prop :=
  ∀ x : RegIx,
    decode (encXKK 0xF#4 x 0x07#8) = some (.ldVxDt x) ∧ decode (encXKK 0xF#4 x 0x15#8) = some (.ldDtVx x) ∧
    decode (encXKK 0xF#4 x 0x18#8) = some (.ldStVx x) ∧
    ∀ s : State,
      (∃ t, exec (.ldVxDt x) s = .next t ∧ t.reg x = s.dt ∧ t.pc = s.pc + 2 ∧ FrameRegs [x] s t) ∧
      (∃ t, exec (.ldDtVx x) s = .next t ∧ t.dt = s.reg x ∧ t.pc = s.pc + 2 ∧ FrameBut (fun e => e == .delay) s t) ∧
      (∃ t, exec (.ldStVx x) s = .next t ∧ t.st = s.reg x ∧ t.pc = s.pc + 2 ∧ FrameBut (fun e => e == .sound) s t)

/-- R128, R129, R130 over their whole cycle: Fx07 reads DT before the tick; Fx15 and Fx18 are ticked in their own cycle, and
loading ST with 1 sounds the tone in it. -/
def Obligations.TimerMovesThroughTheirCycle : Prop :=
  ∀ (s : State) (x : RegIx), s.halt.code = .ok →
    (s.fetch = .ok (encXKK 0xF#4 x 0x07#8) → ∃ t, step s = .next t ∧
      t.reg x = s.dt ∧ t.dt.toNat = s.dt.toNat - 1 ∧ t.pc = s.pc + 2 ∧ ∀ z, z ≠ x → t.reg z = s.reg z) ∧
    (s.fetch = .ok (encXKK 0xF#4 x 0x15#8) → ∃ t, step s = .next t ∧
      t.dt.toNat = (s.reg x).toNat - 1 ∧ t.pc = s.pc + 2 ∧ ∀ z, t.reg z = s.reg z) ∧
    (s.fetch = .ok (encXKK 0xF#4 x 0x18#8) → ∃ t, step s = .next t ∧
      t.st.toNat = (s.reg x).toNat - 1 ∧ (t.ports.tone = true ↔ s.reg x = 1) ∧ t.pc = s.pc + 2 ∧
      ∀ z, t.reg z = s.reg z)

/-- R131: ADD I, Vx adds modulo 65536 and writes no flag. -/
def Obligations.AddIWrapsWithoutFlag : Prop :=
  ∀ x : RegIx, decode (encXKK 0xF#4 x 0x1E#8) = some (.addI x) ∧
  ∀ s : State, ∃ t, exec (.addI x) s = .next t ∧ t.i.toNat = (s.i.toNat + (s.reg x).toNat) % 65536 ∧
    t.pc = s.pc + 2 ∧ FrameBut (fun e => e == .index) s t

/-! ### The baseline no-ops (47_fx_baseline.md) -/

/-- R133 to R137: the five family-F no-ops advance PC by 2 and do nothing else, whatever Vx and I hold. -/
def Obligations.BaselineNoOpsOnlyAdvance : Prop :=
  ∀ x : RegIx,
    decode (encXKK 0xF#4 x 0x0A#8) = some (.ldVxK x) ∧ decode (encXKK 0xF#4 x 0x29#8) = some (.ldF x) ∧
    decode (encXKK 0xF#4 x 0x33#8) = some (.ldB x) ∧ decode (encXKK 0xF#4 x 0x55#8) = some (.ldMemVx x) ∧
    decode (encXKK 0xF#4 x 0x65#8) = some (.ldVxMem x) ∧
    ∀ (s : State) (i : Instr), i ∈ [.ldVxK x, .ldF x, .ldB x, .ldMemVx x, .ldVxMem x] →
      exec i s = .next { s with pc := s.pc + 2 }

/-! ### The cycle (40_cycle.md) -/

/-- A step of a running machine whose bytes at PC decode to an instruction is exec of it, then the tick, the tone and the
status (0, 0); or, where exec raised a fatal condition, the latched status and no tick (R86). -/
def Obligations.StepRunsTheFetchedInstruction : Prop :=
  ∀ (s t : State) (i : Instr), s.halt.code = .ok → s.pc.toNat ≤ 4094 →
    decodeBytes [s.cell s.pc.toNat, s.cell (s.pc.toNat + 1)] = .ok (i, []) →
    exec i { s with ports := { s.ports with
      rnd := Config.randomByte s.ports.draws, draws := s.ports.draws + 1, loadable := false } } = .next t →
    step s = .next (
      if t.halt.code = .ok then
        { t with
          dt := if t.dt = 0 then 0 else t.dt - 1
          st := if t.st = 0 then 0 else t.st - 1
          ports := { t.ports with status := ⟨.ok, 0⟩, tone := decide (t.st = 1) } }
      else { t with ports := { t.ports with status := t.halt, tone := false } })

/-- R81: the fetch is the big-endian pair at PC for every PC up to 4094, odd or even; above, it raises ADDRESS_OUT_OF_RANGE
with the lowest address out of range, and the cycle changes nothing but HALT. -/
def Obligations.FetchReadsTheBigEndianWord : Prop :=
  ∀ s : State,
    (s.pc.toNat ≤ 4094 → ∃ w, s.fetch = .ok w ∧
      w.toNat = (s.cell s.pc.toNat).toNat * 256 + (s.cell (s.pc.toNat + 1)).toNat) ∧
    (s.pc.toNat = 4095 → s.fetch = .error 4096) ∧ (4095 < s.pc.toNat → s.fetch = .error s.pc.toNat) ∧
    (∀ info : Word, s.halt.code = .ok → s.fetch = .error info.toNat → ∃ t, step s = .next t ∧
      t = { s with halt := ⟨.addressOutOfRange, info⟩, ports := t.ports } ∧
      t.ports.status = ⟨.addressOutOfRange, info⟩ ∧ t.ports.tone = false)

/-- R85: an unrecognized word leaves everything but the timers alone, PC included, reports UNKNOWN_OPCODE with the word, and
is fetched again by the next cycle. -/
def Obligations.UnrecognizedWordTicksOnly : Prop :=
  ∀ (s : State) (w : Word), s.halt.code = .ok → s.fetch = .ok w → decode w = none →
    ∃ t, step s = .next t ∧ t.fetch = .ok w ∧
      t = { s with
        dt := if s.dt = 0 then 0 else s.dt - 1
        st := if s.st = 0 then 0 else s.st - 1
        ports := t.ports } ∧
      t.ports.status = ⟨.unknownOpcode, w⟩ ∧ (t.ports.tone = true ↔ s.st = 1)

/-- R90: a halted machine's cycle changes nothing and returns the latched status, tone 0; no host operation but Reset leaves
the halted state. -/
def Obligations.HaltedCycleDoesNothing : Prop :=
  ∀ s : State, s.halt.code ≠ .ok →
    (∃ t, step s = .next t ∧ t = { s with ports := t.ports } ∧ t.ports.status = s.halt ∧ t.ports.tone = false) ∧
    ∀ (op : HostOp) (u : State), hostStep op s = .next u → (u.halt.code = .ok ↔ op = .reset)

/-- R145: a cycle that raises a fatal condition discards its changes, skips the tick, latches HALT and returns its code and
info with tone 0; PC keeps the address of the offending instruction. -/
def Obligations.FatalConditionsArePrecise : Prop :=
  ∀ s t : State, s.halt.code = .ok → step s = .next t → t.halt.code ≠ .ok →
    ∃ c info, c.fatal = true ∧ t = { s with halt := ⟨c, info⟩, ports := t.ports } ∧
      t.ports.status = ⟨c, info⟩ ∧ t.ports.tone = false

/-- R87, R88: every cycle that is not halted and raises nothing fatal ticks both timers, floor at zero, on the values its
instruction wrote, and the tone is exactly the tick that finds ST = 1. -/
def Obligations.EveryCycleTicks : Prop :=
  ∀ s t : State, step s = .next t →
    (s.halt.code = .ok → t.halt.code = .ok →
      t.dt.toNat = s.delayAtTick.toNat - 1 ∧ t.st.toNat = s.soundAtTick.toNat - 1 ∧
      (t.ports.tone = true ↔ s.soundAtTick = 1)) ∧
    (t.halt.code ≠ .ok → t.dt = s.dt ∧ t.st = s.st ∧ t.ports.tone = false)

/-- R36: a cycle writes nothing that its instruction's row does not list, besides PC and the timers; an unrecognized word not
even PC; a fatal condition only HALT. -/
def Obligations.WritesOnlyWhatItsRowLists : Prop :=
  ∀ s t : State, s.halt.code = .ok → step s = .next t →
    (t.halt.code ≠ .ok → (∀ e : Element, e.same s t) ∧ t.pc = s.pc) ∧
    (t.halt.code = .ok → t.halt = s.halt ∧
      (∀ i, s.fetched = some i → ∀ e : Element, mayWrite s.sp.val i e = false → e ≠ .delay → e ≠ .sound → e.same s t) ∧
      (s.fetched = none → t.pc = s.pc ∧ ∀ e : Element, e ≠ .delay → e ≠ .sound → e.same s t))

/-- No step writes memory or the keypad, and none changes the parameters (R31, R45). -/
def Obligations.MemoryAndKeysAreReadOnly : Prop :=
  ∀ s t : State, step s = .next t → t.mem = s.mem ∧ t.key = s.key ∧ t.params = s.params

/-- R34: nothing in a later cycle depends on the status and the tone of an earlier one. -/
def Obligations.OutputsAreNeverRead : Prop :=
  ∀ (s : State) (status : Status) (tone : Bool),
    step { s with ports := { s.ports with status := status, tone := tone } } = step s

/-- R82: the random byte is ignored by every cycle whose instruction is not RND. -/
def Obligations.RandomByteMattersOnlyForRnd : Prop :=
  ∀ (s : State) (a b : Byte), (∀ x kk, s.fetched ≠ some (.rnd x kk)) →
    ∃ t, cycle a s = .next t ∧ cycle b s = .next { t with ports := { t.ports with rnd := b } }

/-- R92: every Cycle returns: no fault, no refusal, no wait. -/
def Obligations.StepAlwaysReturns : Prop :=
  ∀ s : State, ∃ t, step s = .next t

/-! ### The invariant (10_state.md section 11) -/

/-- The invariant of the machine holds after Reset, whatever the parameters are. -/
def Obligations.ResetMeetsTheInvariant : Prop :=
  State.reset.Inv ∧ ∀ s, (hostReset s).Inv

/-- From every state that meets the invariant, a step gives a state that meets it. -/
def Obligations.StepKeepsTheInvariant : Prop :=
  ∀ s t : State, s.Inv → step s = .next t → t.Inv

/-- From every state that meets the invariant, any move of the host, the image load among them, gives a state that meets it. -/
def Obligations.HostMovesKeepTheInvariant : Prop :=
  ∀ (s t : State) (op : HostOp), s.Inv → hostStep op s = .next t → t.Inv

/-- In every state a host can reach: the depth is at most 16, held return addresses are at most 4094, PC is at most 0x10FE,
the font stands at 0 to 79 and the reserved region reads as zero (R24, R37, R41). The bound on the depth holds by the type of
`sp` alone; that the parameters stay is the model's choice of where they are held (log 2, log 3, log 14). -/
def Obligations.ReachableStatesKeepFontAndBounds : Prop :=
  ∀ s : State, Reachable s →
    s.sp.val ≤ 16 ∧ (∀ k : Fin 16, k.val < s.sp.val → (s.stack[k]).toNat ≤ 4094) ∧ s.pc.toNat ≤ 0x10FE ∧
    s.params = State.reset.params ∧ (∀ a : Fin 80, s.cell a.val = s.params.font[a]) ∧
    (∀ a, 0x50 ≤ a → a < 0x200 → s.cell a = 0) ∧ s.halt.code ≠ .unknownOpcode

/-! ### Reset, boot and the host operations (60_exceptions.md, 70_reset_and_hazards.md) -/

/-- R35: Reset puts every element at its value, from any state. -/
def Obligations.ResetRestoresEveryElement : Prop :=
  ∀ s : State, ∃ t, hostStep .reset s = .next t ∧
    (∀ x, t.reg x = 0) ∧ t.i = 0 ∧ t.pc = 0x200 ∧ (∀ k : Fin 16, t.stack[k] = 0) ∧ t.sp = 0 ∧ t.dt = 0 ∧ t.st = 0 ∧
    (∀ c, fbGet t.fb c = false) ∧ t.dirty = false ∧ (∀ k : Fin 16, t.key[k] = false) ∧
    (∀ a : Fin 80, t.cell a.val = s.params.font[a]) ∧ (∀ a, 80 ≤ a → a ≤ 4095 → t.cell a = 0) ∧
    t.halt = ⟨.ok, 0⟩

/-- LoadImage in its window copies an image of at most 3584 bytes verbatim to 0x200 and changes no other byte and no other
element; a longer one is rejected whole and latches HALT (R148, R160). -/
def Obligations.LoadImageCopiesVerbatim : Prop :=
  ∀ (s : State) (image : List Byte), s.ports.loadable = true →
    (image.length ≤ 3584 → ∃ t, hostStep (.loadImage image) s = .next t ∧
      (∀ k (h : k < image.length), t.cell (0x200 + k) = image[k]) ∧
      (∀ a, (a < 0x200 ∨ 0x200 + image.length ≤ a) → t.cell a = s.cell a) ∧
      (∀ e : Element, e ≠ .memory → e.same s t) ∧ t.pc = s.pc ∧ t.halt = s.halt ∧ t.ports.status = ⟨.ok, 0⟩) ∧
    (3584 < image.length → ∃ t, hostStep (.loadImage image) s = .next t ∧
      (∀ e : Element, e.same s t) ∧ t.pc = s.pc ∧ t.halt = ⟨.imageTooLarge, 0⟩ ∧ t.ports.status = ⟨.imageTooLarge, 0⟩)

/-- The image window (R160; held in `ports.loadable`, log 5): Reset opens it, a cycle and an image load close it, the other
host operations leave it; outside it LoadImage has no move. -/
def Obligations.ImageWindowOpensAtReset : Prop :=
  ∀ s : State,
    (s.ports.loadable = false → ∀ image, hostStep (.loadImage image) s = .refused .loadImageOutsideWindow) ∧
    ∀ (op : HostOp) (t : State), hostStep op s = .next t →
      (t.ports.loadable = true ↔ op = .reset ∨
        (s.ports.loadable = true ∧ (∀ rnd, op ≠ .cycle rnd) ∧ ∀ image, op ≠ .loadImage image))

/-- R161: SetKey sets one key flag and nothing else. -/
def Obligations.SetKeySetsOneFlag : Prop :=
  ∀ (s : State) (k : Fin 16) (pressed : Bool), ∃ t, hostStep (.setKey k pressed) s = .next t ∧
    t.key[k] = pressed ∧ (∀ j : Fin 16, j ≠ k → t.key[j] = s.key[j]) ∧ t.pc = s.pc ∧
    FrameBut (fun e => e == .keys) s t

/-- R162: Snapshot is the 2048 cells in row-major order and IsDirty the dirty flag, both changing nothing; ClearDirty clears
the flag and nothing else. -/
def Obligations.SnapshotIsRowMajor : Prop :=
  ∀ s : State,
    (snapshot s).length = 2048 ∧
    (∀ (r : Fin 32) (c : Fin 64), (snapshot s)[64 * r.val + c.val]? = some (fbGet s.fb (r, c))) ∧
    isDirty s = s.dirty ∧ hostStep .snapshot s = .next s ∧ hostStep .isDirty s = .next s ∧
    ∃ t, hostStep .clearDirty s = .next t ∧ t.dirty = false ∧ t.pc = s.pc ∧ FrameBut (fun e => e == .dirtyFlag) s t

/-- R172: after Reset, LoadImage of at most 3584 bytes and any key presses, the first fetch is at 0x200 and reads the first
two bytes of the image (zeros where the image is shorter); with no image the first cycle reports UNKNOWN_OPCODE with the word
0x0000, and so does any later one, since nothing it fetches from has changed. -/
def Obligations.BootStartsAtTheImage : Prop :=
  ∀ (s : State) (image : List Byte) (presses : List (Fin 16 × Bool)) (rnd : Byte), image.length ≤ 3584 →
    (∃ t, hostRun (.reset :: .loadImage image :: presses.map (fun p => .setKey p.1 p.2)) s = .next t ∧
      t.halt.code = .ok ∧ t.pc = 0x200 ∧
      t.fetch = .ok (wordOfBytes (image.getD 0 0x00) (image.getD 1 0x00))) ∧
    (∃ t, hostRun (.reset :: presses.map (fun p => .setKey p.1 p.2) ++ [.cycle rnd]) s = .next t ∧
      t.ports.status = ⟨.unknownOpcode, 0x0000⟩ ∧ t.halt.code = .ok ∧ t.pc = 0x200 ∧ t.fetch = .ok 0x0000)

/-- R174: a program is finished iff the machine runs and PC addresses a jump to itself; it then stays finished for any number
of steps, no register, stack entry, framebuffer cell or memory byte changes, and the timers run down to 0, one count a step. -/
def Obligations.FinishedProgramOnlyRunsItsTimersDown : Prop :=
  ∀ s : State,
    (s.finished = true ↔ s.halt.code = .ok ∧ ∃ nnn, s.fetched = some (.jp nnn) ∧ nnn.toNat = s.pc.toNat) ∧
    ∀ k : Nat, s.finished = true →
      ∃ t : State, Host.Core.run Sys2Proof.core k s = .next t ∧ t.finished = true ∧ t.pc = s.pc ∧ t.halt = s.halt ∧
        (∀ e : Element, e ≠ .delay → e ≠ .sound → e.same s t) ∧
        t.dt.toNat = s.dt.toNat - k ∧ t.st.toNat = s.st.toNat - k

/-- R140: the numbers of the condition codes, and which are fatal. -/
def Obligations.ConditionNumbers : Prop :=
  [Code.ok, .unknownOpcode, .stackOverflow, .stackUnderflow, .addressOutOfRange, .keyIndexOutOfRange, .drawOutOfRange,
    .imageTooLarge].map (fun c => (c.num.toNat, c.fatal)) =
  [(0, false), (1, false), (2, true), (3, true), (4, true), (5, true), (6, true), (7, true)]
end

