-- ==== Sys2Proof/Laws/Decode.lean ====
section
/-! SUPPORT. The fields of an encoded word, format by format: what the decoder extracts is what the encoder put in, and a
word is made of its fields. Everything goes through the number a word is. -/

namespace Sys2Proof

theorem toNat_append_eq {m n : Nat} (a : BitVec m) (b : BitVec n) : (a ++ b).toNat = a.toNat * 2 ^ n + b.toNat := by
  rw [BitVec.toNat_append, ← Nat.shiftLeft_add_eq_or_of_lt b.isLt, Nat.shiftLeft_eq]

/-! ### The number of a word -/

theorem encNNN_toNat (op : BitVec 4) (nnn : Imm12) : (encNNN op nnn).toNat = op.toNat * 4096 + nnn.toNat :=
  toNat_append_eq op nnn

theorem encXKK_toNat (op : BitVec 4) (x : RegIx) (kk : Byte) :
    (encXKK op x kk).toNat = op.toNat * 4096 + x.val * 256 + kk.toNat := by
  have h1 := toNat_append_eq (op ++ (BitVec.ofFin x : BitVec 4)) kk
  have h2 := toNat_append_eq op (BitVec.ofFin x : BitVec 4)
  have h3 : (BitVec.ofFin x : BitVec 4).toNat = x.val := rfl
  have h : (encXKK op x kk).toNat = (op ++ (BitVec.ofFin x : BitVec 4) ++ kk).toNat := rfl
  omega

theorem encXYN_toNat (op : BitVec 4) (x y : RegIx) (n : BitVec 4) :
    (encXYN op x y n).toNat = op.toNat * 4096 + x.val * 256 + y.val * 16 + n.toNat := by
  have h1 := toNat_append_eq (op ++ (BitVec.ofFin x : BitVec 4) ++ (BitVec.ofFin y : BitVec 4)) n
  have h2 := toNat_append_eq (op ++ (BitVec.ofFin x : BitVec 4)) (BitVec.ofFin y : BitVec 4)
  have h3 := toNat_append_eq op (BitVec.ofFin x : BitVec 4)
  have h4 : (BitVec.ofFin x : BitVec 4).toNat = x.val := rfl
  have h5 : (BitVec.ofFin y : BitVec 4).toNat = y.val := rfl
  have h : (encXYN op x y n).toNat = (op ++ (BitVec.ofFin x : BitVec 4) ++ (BitVec.ofFin y : BitVec 4) ++ n).toNat := rfl
  omega

theorem wordOfBytes_toNat (hi lo : Byte) : (wordOfBytes hi lo).toNat = hi.toNat * 256 + lo.toNat :=
  toNat_append_eq hi lo

/-! ### The number of a field -/

theorem opField_toNat (w : Word) : (opField w).toNat = w.toNat / 4096 := by
  have := w.isLt
  simp only [opField, BitVec.extractLsb'_toNat, Nat.shiftRight_eq_div_pow]; omega

theorem xField_val (w : Word) : (xField w).val = w.toNat / 256 % 16 := by
  have h : (xField w).val = (w.extractLsb' 8 4).toNat := rfl
  rw [h, BitVec.extractLsb'_toNat, Nat.shiftRight_eq_div_pow]

theorem yField_val (w : Word) : (yField w).val = w.toNat / 16 % 16 := by
  have h : (yField w).val = (w.extractLsb' 4 4).toNat := rfl
  rw [h, BitVec.extractLsb'_toNat, Nat.shiftRight_eq_div_pow]

theorem nField_toNat (w : Word) : (nField w).toNat = w.toNat % 16 := by
  simp [nField, BitVec.extractLsb'_toNat]

theorem kkField_toNat (w : Word) : (kkField w).toNat = w.toNat % 256 := by
  simp [kkField, BitVec.extractLsb'_toNat]

theorem nnnField_toNat (w : Word) : (nnnField w).toNat = w.toNat % 4096 := by
  simp [nnnField, BitVec.extractLsb'_toNat]

theorem highByte_toNat (w : Word) : (highByte w).toNat = w.toNat / 256 := by
  have := w.isLt
  simp only [highByte, BitVec.extractLsb'_toNat, Nat.shiftRight_eq_div_pow]; omega

theorem lowByte_toNat (w : Word) : (lowByte w).toNat = w.toNat % 256 := by
  simp [lowByte, BitVec.extractLsb'_toNat]

/-! ### Fields of encodings -/

@[simp] theorem opField_encNNN (op : BitVec 4) (nnn : Imm12) : opField (encNNN op nnn) = op :=
  BitVec.eq_of_toNat_eq (by rw [opField_toNat, encNNN_toNat]; omega)

@[simp] theorem nnnField_encNNN (op : BitVec 4) (nnn : Imm12) : nnnField (encNNN op nnn) = nnn :=
  BitVec.eq_of_toNat_eq (by rw [nnnField_toNat, encNNN_toNat]; omega)

@[simp] theorem opField_encXKK (op : BitVec 4) (x : RegIx) (kk : Byte) : opField (encXKK op x kk) = op :=
  BitVec.eq_of_toNat_eq (by rw [opField_toNat, encXKK_toNat]; omega)

@[simp] theorem xField_encXKK (op : BitVec 4) (x : RegIx) (kk : Byte) : xField (encXKK op x kk) = x :=
  Fin.ext (by rw [xField_val, encXKK_toNat]; omega)

@[simp] theorem kkField_encXKK (op : BitVec 4) (x : RegIx) (kk : Byte) : kkField (encXKK op x kk) = kk :=
  BitVec.eq_of_toNat_eq (by rw [kkField_toNat, encXKK_toNat]; omega)

@[simp] theorem opField_encXYN (op : BitVec 4) (x y : RegIx) (n : BitVec 4) : opField (encXYN op x y n) = op :=
  BitVec.eq_of_toNat_eq (by rw [opField_toNat, encXYN_toNat]; omega)

@[simp] theorem xField_encXYN (op : BitVec 4) (x y : RegIx) (n : BitVec 4) : xField (encXYN op x y n) = x :=
  Fin.ext (by rw [xField_val, encXYN_toNat]; omega)

@[simp] theorem yField_encXYN (op : BitVec 4) (x y : RegIx) (n : BitVec 4) : yField (encXYN op x y n) = y :=
  Fin.ext (by rw [yField_val, encXYN_toNat]; omega)

@[simp] theorem nField_encXYN (op : BitVec 4) (x y : RegIx) (n : BitVec 4) : nField (encXYN op x y n) = n :=
  BitVec.eq_of_toNat_eq (by rw [nField_toNat, encXYN_toNat]; omega)

/-! ### A word is made of its fields (R61) -/

/-- The bytes of a word give the word back (R46). -/
@[simp] theorem wordOfBytes_bytes (w : Word) : wordOfBytes (highByte w) (lowByte w) = w :=
  BitVec.eq_of_toNat_eq (by rw [wordOfBytes_toNat, highByte_toNat, lowByte_toNat]; omega)

theorem encNNN_fields (w : Word) : encNNN (opField w) (nnnField w) = w :=
  BitVec.eq_of_toNat_eq (by rw [encNNN_toNat, opField_toNat, nnnField_toNat]; omega)

theorem encXKK_fields (w : Word) : encXKK (opField w) (xField w) (kkField w) = w :=
  BitVec.eq_of_toNat_eq (by rw [encXKK_toNat, opField_toNat, xField_val, kkField_toNat]; omega)

theorem encXYN_fields (w : Word) : encXYN (opField w) (xField w) (yField w) (nField w) = w :=
  BitVec.eq_of_toNat_eq (by rw [encXYN_toNat, opField_toNat, xField_val, yField_val, nField_toNat]; omega)

/-! ### The masks of the opcode map (R66) -/

theorem and_F000_toNat (w : Word) : (w &&& 0xF000#16).toNat = w.toNat / 4096 * 4096 := by
  have h : w &&& 0xF000#16 = w >>> 12 <<< 12 := by
    apply BitVec.eq_of_getLsbD_eq
    intro k hk
    interval_cases k <;> simp
  have := w.isLt
  rw [h]; simp [Nat.shiftRight_eq_div_pow, Nat.shiftLeft_eq]; omega

theorem and_F00F_toNat (w : Word) : (w &&& 0xF00F#16).toNat = w.toNat / 4096 * 4096 + w.toNat % 16 := by
  have h : w &&& 0xF00F#16 = w >>> 12 <<< 12 + w <<< 12 >>> 12 := by
    rw [BitVec.add_eq_or_of_and_eq_zero] <;>
    · apply BitVec.eq_of_getLsbD_eq
      intro k hk
      interval_cases k <;> simp
  have := w.isLt
  rw [h]; simp [BitVec.toNat_add, Nat.shiftRight_eq_div_pow, Nat.shiftLeft_eq]; omega

theorem and_F0FF_toNat (w : Word) : (w &&& 0xF0FF#16).toNat = w.toNat / 4096 * 4096 + w.toNat % 256 := by
  have h : w &&& 0xF0FF#16 = w >>> 12 <<< 12 + w <<< 8 >>> 8 := by
    rw [BitVec.add_eq_or_of_and_eq_zero] <;>
    · apply BitVec.eq_of_getLsbD_eq
      intro k hk
      interval_cases k <;> simp
  have := w.isLt
  rw [h]; simp [BitVec.toNat_add, Nat.shiftRight_eq_div_pow, Nat.shiftLeft_eq]; omega

theorem and_FFFF (w : Word) : w &&& 0xFFFF#16 = w := by
  apply BitVec.eq_of_getLsbD_eq
  intro k hk
  interval_cases k <;> simp

/-- A word is selected by a row that tests the family nibble alone. -/
theorem selects_F000 (w v : Word) : (OpRow.mk 0xF000 v).selects w = true ↔ w.toNat / 4096 * 4096 = v.toNat := by
  rw [OpRow.selects, beq_iff_eq, ← BitVec.toNat_inj]
  exact and_F000_toNat w ▸ Iff.rfl

/-- A word is selected by a row that tests the family and the low nibble. -/
theorem selects_F00F (w v : Word) :
    (OpRow.mk 0xF00F v).selects w = true ↔ w.toNat / 4096 * 4096 + w.toNat % 16 = v.toNat := by
  rw [OpRow.selects, beq_iff_eq, ← BitVec.toNat_inj]
  exact and_F00F_toNat w ▸ Iff.rfl

/-- A word is selected by a row that tests the family and the low byte. -/
theorem selects_F0FF (w v : Word) :
    (OpRow.mk 0xF0FF v).selects w = true ↔ w.toNat / 4096 * 4096 + w.toNat % 256 = v.toNat := by
  rw [OpRow.selects, beq_iff_eq, ← BitVec.toNat_inj]
  exact and_F0FF_toNat w ▸ Iff.rfl

/-- A word is selected by a row that tests the whole word. -/
theorem selects_FFFF (w v : Word) : (OpRow.mk 0xFFFF v).selects w = true ↔ w = v := by
  rw [OpRow.selects, beq_iff_eq]
  show w &&& 0xFFFF#16 = v ↔ w = v
  rw [and_FFFF]

end Sys2Proof
end

