-- ==== Sys2Proof/Laws/State.lean ====
section
/-! SUPPORT. One lemma per field per update of the state, true by `rfl`, so that no later proof unfolds a record update. -/

namespace Sys2Proof.Machine

variable (s : State)

/-! ### `setReg` -/

@[simp] theorem State.setReg_v (x : RegIx) (b : Byte) : (s.setReg x b).v = s.v.set x b := rfl
@[simp] theorem State.setReg_i (x : RegIx) (b : Byte) : (s.setReg x b).i = s.i := rfl
@[simp] theorem State.setReg_pc (x : RegIx) (b : Byte) : (s.setReg x b).pc = s.pc := rfl
@[simp] theorem State.setReg_stack (x : RegIx) (b : Byte) : (s.setReg x b).stack = s.stack := rfl
@[simp] theorem State.setReg_sp (x : RegIx) (b : Byte) : (s.setReg x b).sp = s.sp := rfl
@[simp] theorem State.setReg_dt (x : RegIx) (b : Byte) : (s.setReg x b).dt = s.dt := rfl
@[simp] theorem State.setReg_st (x : RegIx) (b : Byte) : (s.setReg x b).st = s.st := rfl
@[simp] theorem State.setReg_fb (x : RegIx) (b : Byte) : (s.setReg x b).fb = s.fb := rfl
@[simp] theorem State.setReg_dirty (x : RegIx) (b : Byte) : (s.setReg x b).dirty = s.dirty := rfl
@[simp] theorem State.setReg_key (x : RegIx) (b : Byte) : (s.setReg x b).key = s.key := rfl
@[simp] theorem State.setReg_mem (x : RegIx) (b : Byte) : (s.setReg x b).mem = s.mem := rfl
@[simp] theorem State.setReg_halt (x : RegIx) (b : Byte) : (s.setReg x b).halt = s.halt := rfl
@[simp] theorem State.setReg_ports (x : RegIx) (b : Byte) : (s.setReg x b).ports = s.ports := rfl
@[simp] theorem State.setReg_params (x : RegIx) (b : Byte) : (s.setReg x b).params = s.params := rfl

/-! ### `setI` -/

@[simp] theorem State.setI_v (w : Word) : (s.setI w).v = s.v := rfl
@[simp] theorem State.setI_i (w : Word) : (s.setI w).i = w := rfl
@[simp] theorem State.setI_pc (w : Word) : (s.setI w).pc = s.pc := rfl
@[simp] theorem State.setI_stack (w : Word) : (s.setI w).stack = s.stack := rfl
@[simp] theorem State.setI_sp (w : Word) : (s.setI w).sp = s.sp := rfl
@[simp] theorem State.setI_dt (w : Word) : (s.setI w).dt = s.dt := rfl
@[simp] theorem State.setI_st (w : Word) : (s.setI w).st = s.st := rfl
@[simp] theorem State.setI_fb (w : Word) : (s.setI w).fb = s.fb := rfl
@[simp] theorem State.setI_dirty (w : Word) : (s.setI w).dirty = s.dirty := rfl
@[simp] theorem State.setI_key (w : Word) : (s.setI w).key = s.key := rfl
@[simp] theorem State.setI_mem (w : Word) : (s.setI w).mem = s.mem := rfl
@[simp] theorem State.setI_halt (w : Word) : (s.setI w).halt = s.halt := rfl
@[simp] theorem State.setI_ports (w : Word) : (s.setI w).ports = s.ports := rfl
@[simp] theorem State.setI_params (w : Word) : (s.setI w).params = s.params := rfl

/-! ### `setPc` -/

@[simp] theorem State.setPc_v (w : Word) : (s.setPc w).v = s.v := rfl
@[simp] theorem State.setPc_i (w : Word) : (s.setPc w).i = s.i := rfl
@[simp] theorem State.setPc_pc (w : Word) : (s.setPc w).pc = w := rfl
@[simp] theorem State.setPc_stack (w : Word) : (s.setPc w).stack = s.stack := rfl
@[simp] theorem State.setPc_sp (w : Word) : (s.setPc w).sp = s.sp := rfl
@[simp] theorem State.setPc_dt (w : Word) : (s.setPc w).dt = s.dt := rfl
@[simp] theorem State.setPc_st (w : Word) : (s.setPc w).st = s.st := rfl
@[simp] theorem State.setPc_fb (w : Word) : (s.setPc w).fb = s.fb := rfl
@[simp] theorem State.setPc_dirty (w : Word) : (s.setPc w).dirty = s.dirty := rfl
@[simp] theorem State.setPc_key (w : Word) : (s.setPc w).key = s.key := rfl
@[simp] theorem State.setPc_mem (w : Word) : (s.setPc w).mem = s.mem := rfl
@[simp] theorem State.setPc_halt (w : Word) : (s.setPc w).halt = s.halt := rfl
@[simp] theorem State.setPc_ports (w : Word) : (s.setPc w).ports = s.ports := rfl
@[simp] theorem State.setPc_params (w : Word) : (s.setPc w).params = s.params := rfl

/-! ### `setDt` -/

@[simp] theorem State.setDt_v (b : Byte) : (s.setDt b).v = s.v := rfl
@[simp] theorem State.setDt_i (b : Byte) : (s.setDt b).i = s.i := rfl
@[simp] theorem State.setDt_pc (b : Byte) : (s.setDt b).pc = s.pc := rfl
@[simp] theorem State.setDt_stack (b : Byte) : (s.setDt b).stack = s.stack := rfl
@[simp] theorem State.setDt_sp (b : Byte) : (s.setDt b).sp = s.sp := rfl
@[simp] theorem State.setDt_dt (b : Byte) : (s.setDt b).dt = b := rfl
@[simp] theorem State.setDt_st (b : Byte) : (s.setDt b).st = s.st := rfl
@[simp] theorem State.setDt_fb (b : Byte) : (s.setDt b).fb = s.fb := rfl
@[simp] theorem State.setDt_dirty (b : Byte) : (s.setDt b).dirty = s.dirty := rfl
@[simp] theorem State.setDt_key (b : Byte) : (s.setDt b).key = s.key := rfl
@[simp] theorem State.setDt_mem (b : Byte) : (s.setDt b).mem = s.mem := rfl
@[simp] theorem State.setDt_halt (b : Byte) : (s.setDt b).halt = s.halt := rfl
@[simp] theorem State.setDt_ports (b : Byte) : (s.setDt b).ports = s.ports := rfl
@[simp] theorem State.setDt_params (b : Byte) : (s.setDt b).params = s.params := rfl

/-! ### `setSt` -/

@[simp] theorem State.setSt_v (b : Byte) : (s.setSt b).v = s.v := rfl
@[simp] theorem State.setSt_i (b : Byte) : (s.setSt b).i = s.i := rfl
@[simp] theorem State.setSt_pc (b : Byte) : (s.setSt b).pc = s.pc := rfl
@[simp] theorem State.setSt_stack (b : Byte) : (s.setSt b).stack = s.stack := rfl
@[simp] theorem State.setSt_sp (b : Byte) : (s.setSt b).sp = s.sp := rfl
@[simp] theorem State.setSt_dt (b : Byte) : (s.setSt b).dt = s.dt := rfl
@[simp] theorem State.setSt_st (b : Byte) : (s.setSt b).st = b := rfl
@[simp] theorem State.setSt_fb (b : Byte) : (s.setSt b).fb = s.fb := rfl
@[simp] theorem State.setSt_dirty (b : Byte) : (s.setSt b).dirty = s.dirty := rfl
@[simp] theorem State.setSt_key (b : Byte) : (s.setSt b).key = s.key := rfl
@[simp] theorem State.setSt_mem (b : Byte) : (s.setSt b).mem = s.mem := rfl
@[simp] theorem State.setSt_halt (b : Byte) : (s.setSt b).halt = s.halt := rfl
@[simp] theorem State.setSt_ports (b : Byte) : (s.setSt b).ports = s.ports := rfl
@[simp] theorem State.setSt_params (b : Byte) : (s.setSt b).params = s.params := rfl

/-! ### `advance` -/

@[simp] theorem State.advance_v : (s.advance).v = s.v := rfl
@[simp] theorem State.advance_i : (s.advance).i = s.i := rfl
@[simp] theorem State.advance_pc : (s.advance).pc = s.pc + 2 := rfl
@[simp] theorem State.advance_stack : (s.advance).stack = s.stack := rfl
@[simp] theorem State.advance_sp : (s.advance).sp = s.sp := rfl
@[simp] theorem State.advance_dt : (s.advance).dt = s.dt := rfl
@[simp] theorem State.advance_st : (s.advance).st = s.st := rfl
@[simp] theorem State.advance_fb : (s.advance).fb = s.fb := rfl
@[simp] theorem State.advance_dirty : (s.advance).dirty = s.dirty := rfl
@[simp] theorem State.advance_key : (s.advance).key = s.key := rfl
@[simp] theorem State.advance_mem : (s.advance).mem = s.mem := rfl
@[simp] theorem State.advance_halt : (s.advance).halt = s.halt := rfl
@[simp] theorem State.advance_ports : (s.advance).ports = s.ports := rfl
@[simp] theorem State.advance_params : (s.advance).params = s.params := rfl

/-! ### `skipIf` -/

@[simp] theorem State.skipIf_v (c : Bool) : (s.skipIf c).v = s.v := rfl
@[simp] theorem State.skipIf_i (c : Bool) : (s.skipIf c).i = s.i := rfl
@[simp] theorem State.skipIf_pc (c : Bool) : (s.skipIf c).pc = if c then s.pc + 4 else s.pc + 2 := rfl
@[simp] theorem State.skipIf_stack (c : Bool) : (s.skipIf c).stack = s.stack := rfl
@[simp] theorem State.skipIf_sp (c : Bool) : (s.skipIf c).sp = s.sp := rfl
@[simp] theorem State.skipIf_dt (c : Bool) : (s.skipIf c).dt = s.dt := rfl
@[simp] theorem State.skipIf_st (c : Bool) : (s.skipIf c).st = s.st := rfl
@[simp] theorem State.skipIf_fb (c : Bool) : (s.skipIf c).fb = s.fb := rfl
@[simp] theorem State.skipIf_dirty (c : Bool) : (s.skipIf c).dirty = s.dirty := rfl
@[simp] theorem State.skipIf_key (c : Bool) : (s.skipIf c).key = s.key := rfl
@[simp] theorem State.skipIf_mem (c : Bool) : (s.skipIf c).mem = s.mem := rfl
@[simp] theorem State.skipIf_halt (c : Bool) : (s.skipIf c).halt = s.halt := rfl
@[simp] theorem State.skipIf_ports (c : Bool) : (s.skipIf c).ports = s.ports := rfl
@[simp] theorem State.skipIf_params (c : Bool) : (s.skipIf c).params = s.params := rfl

/-! ### `raise` -/

@[simp] theorem State.raise_v (c : Code) (info : Word) : (s.raise c info).v = s.v := rfl
@[simp] theorem State.raise_i (c : Code) (info : Word) : (s.raise c info).i = s.i := rfl
@[simp] theorem State.raise_pc (c : Code) (info : Word) : (s.raise c info).pc = s.pc := rfl
@[simp] theorem State.raise_stack (c : Code) (info : Word) : (s.raise c info).stack = s.stack := rfl
@[simp] theorem State.raise_sp (c : Code) (info : Word) : (s.raise c info).sp = s.sp := rfl
@[simp] theorem State.raise_dt (c : Code) (info : Word) : (s.raise c info).dt = s.dt := rfl
@[simp] theorem State.raise_st (c : Code) (info : Word) : (s.raise c info).st = s.st := rfl
@[simp] theorem State.raise_fb (c : Code) (info : Word) : (s.raise c info).fb = s.fb := rfl
@[simp] theorem State.raise_dirty (c : Code) (info : Word) : (s.raise c info).dirty = s.dirty := rfl
@[simp] theorem State.raise_key (c : Code) (info : Word) : (s.raise c info).key = s.key := rfl
@[simp] theorem State.raise_mem (c : Code) (info : Word) : (s.raise c info).mem = s.mem := rfl
@[simp] theorem State.raise_halt (c : Code) (info : Word) : (s.raise c info).halt = ⟨c, info⟩ := rfl
@[simp] theorem State.raise_ports (c : Code) (info : Word) : (s.raise c info).ports = s.ports := rfl
@[simp] theorem State.raise_params (c : Code) (info : Word) : (s.raise c info).params = s.params := rfl

/-! ### `memWrites` -/

@[simp] theorem State.memWrites_v (a : Nat) (bytes : List Byte) : (s.memWrites a bytes).v = s.v := rfl
@[simp] theorem State.memWrites_i (a : Nat) (bytes : List Byte) : (s.memWrites a bytes).i = s.i := rfl
@[simp] theorem State.memWrites_pc (a : Nat) (bytes : List Byte) : (s.memWrites a bytes).pc = s.pc := rfl
@[simp] theorem State.memWrites_stack (a : Nat) (bytes : List Byte) : (s.memWrites a bytes).stack = s.stack := rfl
@[simp] theorem State.memWrites_sp (a : Nat) (bytes : List Byte) : (s.memWrites a bytes).sp = s.sp := rfl
@[simp] theorem State.memWrites_dt (a : Nat) (bytes : List Byte) : (s.memWrites a bytes).dt = s.dt := rfl
@[simp] theorem State.memWrites_st (a : Nat) (bytes : List Byte) : (s.memWrites a bytes).st = s.st := rfl
@[simp] theorem State.memWrites_fb (a : Nat) (bytes : List Byte) : (s.memWrites a bytes).fb = s.fb := rfl
@[simp] theorem State.memWrites_dirty (a : Nat) (bytes : List Byte) : (s.memWrites a bytes).dirty = s.dirty := rfl
@[simp] theorem State.memWrites_key (a : Nat) (bytes : List Byte) : (s.memWrites a bytes).key = s.key := rfl
@[simp] theorem State.memWrites_mem (a : Nat) (bytes : List Byte) : (s.memWrites a bytes).mem = writeCells s.params.font s.mem a bytes := rfl
@[simp] theorem State.memWrites_halt (a : Nat) (bytes : List Byte) : (s.memWrites a bytes).halt = s.halt := rfl
@[simp] theorem State.memWrites_ports (a : Nat) (bytes : List Byte) : (s.memWrites a bytes).ports = s.ports := rfl
@[simp] theorem State.memWrites_params (a : Nat) (bytes : List Byte) : (s.memWrites a bytes).params = s.params := rfl

/-! ### `invoke` -/

@[simp] theorem State.invoke_v (rnd : Byte) : (s.invoke rnd).v = s.v := rfl
@[simp] theorem State.invoke_i (rnd : Byte) : (s.invoke rnd).i = s.i := rfl
@[simp] theorem State.invoke_pc (rnd : Byte) : (s.invoke rnd).pc = s.pc := rfl
@[simp] theorem State.invoke_stack (rnd : Byte) : (s.invoke rnd).stack = s.stack := rfl
@[simp] theorem State.invoke_sp (rnd : Byte) : (s.invoke rnd).sp = s.sp := rfl
@[simp] theorem State.invoke_dt (rnd : Byte) : (s.invoke rnd).dt = s.dt := rfl
@[simp] theorem State.invoke_st (rnd : Byte) : (s.invoke rnd).st = s.st := rfl
@[simp] theorem State.invoke_fb (rnd : Byte) : (s.invoke rnd).fb = s.fb := rfl
@[simp] theorem State.invoke_dirty (rnd : Byte) : (s.invoke rnd).dirty = s.dirty := rfl
@[simp] theorem State.invoke_key (rnd : Byte) : (s.invoke rnd).key = s.key := rfl
@[simp] theorem State.invoke_mem (rnd : Byte) : (s.invoke rnd).mem = s.mem := rfl
@[simp] theorem State.invoke_halt (rnd : Byte) : (s.invoke rnd).halt = s.halt := rfl
@[simp] theorem State.invoke_ports (rnd : Byte) : (s.invoke rnd).ports = { s.ports with rnd := rnd, draws := s.ports.draws + 1, loadable := false } := rfl
@[simp] theorem State.invoke_params (rnd : Byte) : (s.invoke rnd).params = s.params := rfl

/-! ### `report` -/

@[simp] theorem State.report_v (status : Status) (tone : Bool) : (s.report status tone).v = s.v := rfl
@[simp] theorem State.report_i (status : Status) (tone : Bool) : (s.report status tone).i = s.i := rfl
@[simp] theorem State.report_pc (status : Status) (tone : Bool) : (s.report status tone).pc = s.pc := rfl
@[simp] theorem State.report_stack (status : Status) (tone : Bool) : (s.report status tone).stack = s.stack := rfl
@[simp] theorem State.report_sp (status : Status) (tone : Bool) : (s.report status tone).sp = s.sp := rfl
@[simp] theorem State.report_dt (status : Status) (tone : Bool) : (s.report status tone).dt = s.dt := rfl
@[simp] theorem State.report_st (status : Status) (tone : Bool) : (s.report status tone).st = s.st := rfl
@[simp] theorem State.report_fb (status : Status) (tone : Bool) : (s.report status tone).fb = s.fb := rfl
@[simp] theorem State.report_dirty (status : Status) (tone : Bool) : (s.report status tone).dirty = s.dirty := rfl
@[simp] theorem State.report_key (status : Status) (tone : Bool) : (s.report status tone).key = s.key := rfl
@[simp] theorem State.report_mem (status : Status) (tone : Bool) : (s.report status tone).mem = s.mem := rfl
@[simp] theorem State.report_halt (status : Status) (tone : Bool) : (s.report status tone).halt = s.halt := rfl
@[simp] theorem State.report_ports (status : Status) (tone : Bool) : (s.report status tone).ports = { s.ports with status := status, tone := tone } := rfl
@[simp] theorem State.report_params (status : Status) (tone : Bool) : (s.report status tone).params = s.params := rfl

/-! ### `tick` -/

@[simp] theorem State.tick_v : (s.tick).v = s.v := rfl
@[simp] theorem State.tick_i : (s.tick).i = s.i := rfl
@[simp] theorem State.tick_pc : (s.tick).pc = s.pc := rfl
@[simp] theorem State.tick_stack : (s.tick).stack = s.stack := rfl
@[simp] theorem State.tick_sp : (s.tick).sp = s.sp := rfl
@[simp] theorem State.tick_dt : (s.tick).dt = countDown s.dt := rfl
@[simp] theorem State.tick_st : (s.tick).st = countDown s.st := rfl
@[simp] theorem State.tick_fb : (s.tick).fb = s.fb := rfl
@[simp] theorem State.tick_dirty : (s.tick).dirty = s.dirty := rfl
@[simp] theorem State.tick_key : (s.tick).key = s.key := rfl
@[simp] theorem State.tick_mem : (s.tick).mem = s.mem := rfl
@[simp] theorem State.tick_halt : (s.tick).halt = s.halt := rfl
@[simp] theorem State.tick_ports : (s.tick).ports = s.ports := rfl
@[simp] theorem State.tick_params : (s.tick).params = s.params := rfl

/-! ### Reading a register after a write -/

theorem State.reg_setReg (x : RegIx) (b : Byte) (z : RegIx) :
    (s.setReg x b).reg z = if z = x then b else s.reg z := by
  simp only [State.reg, State.setReg, Fin.getElem_fin, Vector.getElem_set]
  by_cases h : z = x
  · simp [h]
  · rw [if_neg h, if_neg fun e => h (Fin.ext e.symm)]

@[simp] theorem State.reg_setReg_same (x : RegIx) (b : Byte) : (s.setReg x b).reg x = b := by
  simp [State.reg_setReg]

theorem State.reg_setReg_other {x z : RegIx} (b : Byte) (h : z ≠ x) : (s.setReg x b).reg z = s.reg z := by
  simp [State.reg_setReg, h]

end Sys2Proof.Machine
end

