-- ==== Sys2Proof/Laws/Memory.lean ====
section
/-! SUPPORT. The laws of memory: a read after a write to the same address gives the value written, a write leaves every other
address alone, and every memory operation keeps the canonical form. They hold for every font. -/

namespace Sys2Proof.Machine

variable {font : Vector Byte 80}

theorem readCell_eraseCell (m : Memory) (a b : Nat) :
    readCell font (eraseCell m a) b = if b = a then background font a else readCell font m b := by
  induction m with
  | nil => by_cases h : b = a <;> simp [eraseCell, readCell, h]
  | cons c rest ih =>
    obtain ⟨k, y⟩ := c
    simp only [eraseCell] at ih
    by_cases hk : k = a
    · subst hk
      rw [eraseCell, List.filter_cons_of_neg (by simp), ih]
      by_cases hb : b = k <;> simp [readCell, hb]
    · rw [eraseCell, List.filter_cons_of_pos (by simpa using hk)]
      simp only [readCell, ih]
      by_cases hb : b = k
      · simp [hb, hk]
      · simp [hb]

theorem readCell_insertCell (m : Memory) (a b : Nat) (x : Byte) :
    readCell font (insertCell m a x) b = if b = a then x else readCell font m b := by
  induction m with
  | nil => simp [insertCell, readCell]
  | cons c rest ih =>
    obtain ⟨k, y⟩ := c
    simp only [insertCell]
    split
    · simp [readCell]
    · split
      · next h => subst h; by_cases hb : b = a <;> simp [readCell, hb]
      · next h =>
        simp only [readCell, ih]
        by_cases hb : b = k
        · subst hb; simp [Ne.symm h]
        · simp [hb]

/-- Read after write, at the same address and at every other one. -/
theorem readCell_writeCell (m : Memory) (a b : Nat) (x : Byte) :
    readCell font (writeCell font m a x) b = if b = a then x else readCell font m b := by
  unfold writeCell
  split
  · next h => rw [readCell_eraseCell, h]
  · exact readCell_insertCell m a b x

/-- Read after a sequence of writes. -/
theorem readCell_writeCells (bytes : List Byte) (m : Memory) (a b : Nat) :
    readCell font (writeCells font m a bytes) b =
      if h : a ≤ b ∧ b - a < bytes.length then bytes[b - a]'h.2 else readCell font m b := by
  induction bytes generalizing m a with
  | nil => simp [writeCells]
  | cons x rest ih =>
    rw [writeCells, ih, readCell_writeCell]
    by_cases hb : b = a
    · subst hb; simp
    · by_cases hlt : a < b
      · have e : b - a = (b - (a + 1)) + 1 := by omega
        by_cases hin : b - (a + 1) < rest.length
        · rw [dif_pos ⟨hlt, hin⟩, dif_pos ⟨hlt.le, by simp; omega⟩]
          simp [e]
        · rw [dif_neg (by omega), dif_neg (by simp; omega), if_neg hb]
      · rw [dif_neg (by omega), dif_neg (by omega), if_neg hb]

/-! ### The canonical form -/

theorem memWf_iff (m : Memory) :
    memWf font m = true ↔
      m.Pairwise (fun c d => c.1 < d.1) ∧ ∀ c ∈ m, c.1 < Config.memSize ∧ c.2 ≠ background font c.1 := by
  simp [memWf]

theorem memWf_nil : memWf font [] = true := by simp [memWf]

theorem mem_eraseCell {m : Memory} {a : Nat} {c : Host.Cell} : c ∈ eraseCell m a ↔ c ∈ m ∧ c.1 ≠ a := by
  simp [eraseCell]

theorem mem_insertCell {m : Memory} {a : Nat} {x : Byte} {c : Host.Cell} (h : c ∈ insertCell m a x) :
    c = (a, x) ∨ c ∈ m := by
  induction m with
  | nil => simpa [insertCell] using h
  | cons d rest ih =>
    obtain ⟨k, y⟩ := d
    simp only [insertCell] at h
    split at h
    · simpa using h
    · split at h
      · rcases List.mem_cons.1 h with h | h
        · exact .inl h
        · exact .inr (List.mem_cons_of_mem _ h)
      · rcases List.mem_cons.1 h with h | h
        · exact .inr (h ▸ List.mem_cons_self)
        · exact (ih h).imp id (List.mem_cons_of_mem _)

theorem insertCell_rising {m : Memory} (a : Nat) (x : Byte) (h : m.Pairwise (fun c d => c.1 < d.1)) :
    (insertCell m a x).Pairwise (fun c d => c.1 < d.1) := by
  induction m with
  | nil => simp [insertCell]
  | cons d rest ih =>
    obtain ⟨k, y⟩ := d
    obtain ⟨hk, hr⟩ := List.pairwise_cons.1 h
    simp only [insertCell]
    split
    · next hlt =>
      refine List.pairwise_cons.2 ⟨fun c hc => ?_, h⟩
      rcases List.mem_cons.1 hc with rfl | hc
      · exact hlt
      · exact hlt.trans (hk c hc)
    · split
      · next he => exact List.pairwise_cons.2 ⟨fun c hc => he ▸ hk c hc, hr⟩
      · next hn he =>
        refine List.pairwise_cons.2 ⟨fun c hc => ?_, ih hr⟩
        rcases mem_insertCell hc with rfl | hc
        · show k < a; omega
        · exact hk c hc

/-- A write inside the address space keeps the canonical form. -/
theorem writeCell_keeps_memWf {m : Memory} {a : Nat} (x : Byte) (ha : a < Config.memSize) (h : memWf font m = true) :
    memWf font (writeCell font m a x) = true := by
  rw [memWf_iff] at h ⊢
  unfold writeCell
  split
  · exact ⟨h.1.filter _, fun c hc => h.2 c (mem_eraseCell.1 hc).1⟩
  · next hx =>
    refine ⟨insertCell_rising a x h.1, fun c hc => ?_⟩
    rcases mem_insertCell hc with rfl | hc
    · exact ⟨ha, hx⟩
    · exact h.2 c hc

/-- A sequence of writes inside the address space keeps the canonical form. -/
theorem writeCells_keep_memWf (bytes : List Byte) {m : Memory} {a : Nat} (ha : a + bytes.length ≤ Config.memSize)
    (h : memWf font m = true) : memWf font (writeCells font m a bytes) = true := by
  induction bytes generalizing m a with
  | nil => exact h
  | cons x rest ih =>
    simp only [List.length_cons] at ha
    exact ih (by omega) (writeCell_keeps_memWf x (by omega) h)

/-- Writes from an address on list no address below it that was not listed before. -/
theorem mem_writeCells (bytes : List Byte) {m : Memory} {a : Nat} {c : Host.Cell} (h : c ∈ writeCells font m a bytes) :
    a ≤ c.1 ∨ c ∈ m := by
  induction bytes generalizing m a with
  | nil => exact .inr h
  | cons x rest ih =>
    rcases ih h with h | h
    · left; omega
    · unfold writeCell at h
      split at h
      · exact .inr (mem_eraseCell.1 h).1
      · rcases mem_insertCell h with rfl | h
        · exact .inl le_rfl
        · exact .inr h

/-! ### Reading through the state -/

theorem State.memRead_of_lt (s : State) {a : Nat} (h : a < 4096) : s.memRead a = some (s.cell a) := by
  simp [State.memRead, h]

theorem State.memRead_of_ge (s : State) {a : Nat} (h : 4096 ≤ a) : s.memRead a = none := by
  simp [State.memRead, Nat.not_lt.2 h]

/-- Inside memory, a read of `n` bytes gives them in ascending order (R44). -/
theorem State.memReads_ok (s : State) (n : Nat) (a : Nat) (h : a + n ≤ 4096) :
    s.memReads a n = .ok ((List.range n).map (fun j => s.cell (a + j))) := by
  induction n generalizing a with
  | zero => rfl
  | succ n ih =>
    rw [State.memReads, s.memRead_of_lt (by omega), ih (a + 1) (by omega), List.range_succ_eq_map]
    simp only [List.map_cons, List.map_map, Nat.add_zero, Function.comp_def, Nat.succ_eq_add_one]
    simp only [Nat.add_assoc, Nat.add_comm 1]

/-- A read of bytes that leaves memory fails at the lowest address out of range (R44, R144). -/
theorem State.memReads_error (s : State) (n : Nat) (a : Nat) (hn : n ≠ 0) (h : 4096 < a + n) :
    s.memReads a n = .error (max a 4096) := by
  induction n generalizing a with
  | zero => exact absurd rfl hn
  | succ n ih =>
    rw [State.memReads]
    by_cases ha : 4096 ≤ a
    · rw [s.memRead_of_ge ha, Nat.max_eq_left ha]
    · rw [s.memRead_of_lt (by omega), ih (a + 1) (by omega) (by omega)]
      simp; omega

end Sys2Proof.Machine
end

