-- ==== Sys2Proof/Laws/Cycle.lean ====
section
/-! SUPPORT. What a fetch, an instruction and a cycle can do, said once: later proofs cite these instead of unfolding. -/

namespace Sys2Proof.Machine

/-! ### Fetch (R81) -/

theorem State.fetch_ok (s : State) (h : s.pc.toNat ≤ 4094) :
    s.fetch = .ok (wordOfBytes (s.cell s.pc.toNat) (s.cell (s.pc.toNat + 1))) := by
  rw [State.fetch, s.memRead_of_lt (by omega), s.memRead_of_lt (by omega)]

theorem State.fetch_error (s : State) (h : 4094 < s.pc.toNat) :
    s.fetch = .error (if 4095 < s.pc.toNat then s.pc.toNat else 4096) := by
  by_cases h' : 4095 < s.pc.toNat
  · rw [State.fetch, s.memRead_of_ge (by omega), if_pos h']
  · have e : s.pc.toNat = 4095 := by omega
    rw [State.fetch, s.memRead_of_lt (by omega), s.memRead_of_ge (a := s.pc.toNat + 1) (by omega), if_neg h', e]

/-- A fetch succeeds exactly for `PC` in 0 to 4094. -/
theorem State.fetch_ok_pc {s : State} {w : Word} (h : s.fetch = .ok w) : s.pc.toNat ≤ 4094 := by
  by_contra hn
  rw [s.fetch_error (by omega)] at h
  cases h

@[simp] theorem State.fetch_invoke (s : State) (rnd : Byte) : (s.invoke rnd).fetch = s.fetch := rfl

/-! ### The call stack -/

theorem State.push_cases {s t : State} {addr : Word} (h : s.push addr = some t) :
    ∃ hs : s.sp.val < 16, t = { s with stack := s.stack.set s.sp.val addr hs, sp := ⟨s.sp.val + 1, by omega⟩ } := by
  unfold State.push at h
  split at h
  · next hs => exact ⟨hs, (Option.some.inj h).symm⟩
  · cases h

theorem State.push_none {s : State} {addr : Word} : s.push addr = none ↔ s.sp.val = 16 := by
  have := s.sp.isLt
  unfold State.push
  split
  · next h =>
    have : s.sp.val < 16 := h
    simp; omega
  · next h =>
    have : ¬ s.sp.val < 16 := h
    simp; omega

theorem State.pop_cases {s t : State} {addr : Word} (h : s.pop = some (addr, t)) :
    ∃ k : Fin 16, s.sp.val = k.val + 1 ∧ addr = s.stack[k] ∧ t = { s with sp := ⟨k.val, by omega⟩ } := by
  unfold State.pop at h
  split at h
  · cases h
  · next hs =>
    have := s.sp.isLt
    injection h with h
    injection h with h1 h2
    refine ⟨⟨s.sp.val - 1, by omega⟩, by simp; omega, h1.symm, h2.symm⟩

theorem State.pop_none {s : State} : s.pop = none ↔ s.sp.val = 0 := by
  unfold State.pop; split <;> simp_all

/-! ### What one instruction can do -/

/-- How an instruction that raises nothing may leave the call stack: alone, one entry popped, or `PC` pushed. -/
def StackMove (s t : State) : Prop :=
  (t.stack = s.stack ∧ t.sp = s.sp) ∨
  (t.stack = s.stack ∧ t.sp.val + 1 = s.sp.val) ∨
  (∃ h : s.sp.val < 16, t.stack = s.stack.set s.sp.val s.pc h ∧ t.sp.val = s.sp.val + 1)

/-- How an instruction that raises nothing may set `PC` (R24). -/
def PcMove (s t : State) : Prop :=
  t.pc = s.pc + 2 ∨ t.pc = s.pc + 4 ∨ t.pc.toNat ≤ 0x10FE ∨ ∃ k : Fin 16, k.val < s.sp.val ∧ t.pc = s.stack[k] + 2

/-- What an instruction that raises nothing does to the elements no family owns. -/
structure RunsQuietly (s t : State) : Prop where
  mem : t.mem = s.mem
  key : t.key = s.key
  halt : t.halt = s.halt
  ports : t.ports = s.ports
  params : t.params = s.params
  stackMove : StackMove s t
  pcMove : PcMove s t

theorem runsQuietly_advance {s t : State} (h : t.mem = s.mem ∧ t.key = s.key ∧ t.halt = s.halt ∧ t.ports = s.ports ∧
    t.params = s.params ∧ t.stack = s.stack ∧ t.sp = s.sp ∧ t.pc = s.pc) : RunsQuietly s t.advance :=
  ⟨h.1, h.2.1, h.2.2.1, h.2.2.2.1, h.2.2.2.2.1, .inl ⟨h.2.2.2.2.2.1, h.2.2.2.2.2.2.1⟩,
    .inl (by rw [State.advance_pc, h.2.2.2.2.2.2.2])⟩

theorem runsQuietly_skipIf (s : State) (c : Bool) : RunsQuietly s (s.skipIf c) :=
  ⟨rfl, rfl, rfl, rfl, rfl, .inl ⟨rfl, rfl⟩, by cases c <;> simp [PcMove]⟩

theorem runsQuietly_setPc (s : State) (w : Word) (h : w.toNat ≤ 0x10FE) : RunsQuietly s (s.setPc w) :=
  ⟨rfl, rfl, rfl, rfl, rfl, .inl ⟨rfl, rfl⟩, .inr (.inr (.inl h))⟩

theorem zextImm_toNat (nnn : Imm12) : (zextImm nnn).toNat = nnn.toNat := by
  have := nnn.isLt
  simp [zextImm, BitVec.toNat_setWidth]; omega

theorem zextByte_toNat (b : Byte) : (zextByte b).toNat = b.toNat := by
  have := b.isLt
  simp [zextByte, BitVec.toNat_setWidth]; omega

/-- The offset jump target is the exact sum: it never wraps (R103). -/
theorem State.offsetTarget_toNat (s : State) (nnn : Imm12) :
    (s.offsetTarget nnn).toNat = nnn.toNat + (s.reg 0).toNat := by
  have := nnn.isLt
  have := (s.reg 0).isLt
  simp only [State.offsetTarget, BitVec.toNat_add, zextImm_toNat, zextByte_toNat]; omega

/-- One instruction either raises a fatal condition and changes nothing but `HALT`, or runs quietly. -/
theorem exec_cases {i : Instr} {s t : State} (h : exec i s = .next t) :
    (∃ c info, c.fatal = true ∧ t = s.raise c info) ∨ RunsQuietly s t := by
  have quiet : ∀ {u : State}, RunsQuietly s u → .next u = Host.Outcome.next (φ := Fault) (ρ := Refusal) t →
      RunsQuietly s t := by
    intro u hu e; cases e; exact hu
  cases i with
  | ret =>
    injection h with h
    revert h
    split
    · rintro rfl; exact .inl ⟨_, _, rfl, rfl⟩
    · next addr u hp =>
      rintro rfl
      obtain ⟨k, hk, rfl, rfl⟩ := State.pop_cases hp
      exact .inr ⟨rfl, rfl, rfl, rfl, rfl, .inr (.inl ⟨rfl, hk.symm⟩), .inr (.inr (.inr ⟨k, by omega, rfl⟩))⟩
  | call nnn =>
    injection h with h
    revert h
    split
    · rintro rfl; exact .inl ⟨_, _, rfl, rfl⟩
    · next u hp =>
      rintro rfl
      obtain ⟨hs, rfl⟩ := State.push_cases hp
      refine .inr ⟨rfl, rfl, rfl, rfl, rfl, .inr (.inr ⟨hs, rfl, rfl⟩), .inr (.inr (.inl ?_))⟩
      have := nnn.isLt
      show (zextImm nnn).toNat ≤ _
      rw [zextImm_toNat]; omega
  | jp nnn =>
    refine .inr (quiet (runsQuietly_setPc s _ ?_) h)
    have := nnn.isLt
    rw [zextImm_toNat]; omega
  | jpV0 nnn =>
    refine .inr (quiet (runsQuietly_setPc s _ ?_) h)
    have := nnn.isLt
    have := (s.reg 0).isLt
    rw [State.offsetTarget_toNat]; omega
  | skp x =>
    injection h with h
    revert h
    unfold State.skipOnKey
    split
    · rintro rfl; exact .inl ⟨_, _, rfl, rfl⟩
    · rintro rfl; exact .inr (runsQuietly_skipIf s _)
  | sknp x =>
    injection h with h
    revert h
    unfold State.skipOnKey
    split
    · rintro rfl; exact .inl ⟨_, _, rfl, rfl⟩
    · rintro rfl; exact .inr (runsQuietly_skipIf s _)
  | drw x y n =>
    injection h with h
    revert h
    split
    · rintro rfl; exact .inl ⟨_, _, rfl, rfl⟩
    · split
      · rintro rfl; exact .inl ⟨_, _, rfl, rfl⟩
      · rintro rfl
        exact .inr (runsQuietly_advance ⟨rfl, rfl, rfl, rfl, rfl, rfl, rfl, rfl⟩)
  | seImm x kk => exact .inr (quiet (runsQuietly_skipIf s _) h)
  | sneImm x kk => exact .inr (quiet (runsQuietly_skipIf s _) h)
  | seReg x y => exact .inr (quiet (runsQuietly_skipIf s _) h)
  | sneReg x y => exact .inr (quiet (runsQuietly_skipIf s _) h)
  | cls | ldImm | addImm | ldReg | orReg | andReg | xorReg | addReg | subReg | shr | subnReg | shl | ldI | rnd | ldVxDt | ldVxK
  | ldDtVx | ldStVx | addI | ldF | ldB | ldMemVx | ldVxMem =>
    injection h with h
    subst h
    exact .inr (runsQuietly_advance ⟨rfl, rfl, rfl, rfl, rfl, rfl, rfl, rfl⟩)

/-- Every instruction answers a next state: no fault, no refusal (R92). -/
theorem exec_next (i : Instr) (s : State) : ∃ t, exec i s = .next t := by
  cases i <;> exact ⟨_, rfl⟩

/-! ### What one cycle can do -/

/-- The four ends of a cycle (R86): halted on entry, fetch out of range, unrecognized word, instruction executed. -/
inductive CycleCase (rnd : Byte) (s t : State) : Prop where
  | halted (h : s.halted = true) (ht : t = (s.invoke rnd).report s.halt false)
  | badFetch (h : s.halted = false) (a : Nat) (hf : s.fetch = .error a)
      (ht : t = ((s.invoke rnd).raise .addressOutOfRange (BitVec.ofNat 16 a)).report
        ⟨.addressOutOfRange, BitVec.ofNat 16 a⟩ false)
  | unrecognized (h : s.halted = false) (w : Word) (hf : s.fetch = .ok w) (hd : decode w = none)
      (ht : t = (s.invoke rnd).tick.report ⟨.unknownOpcode, w⟩ s.toneDue)
  | executed (h : s.halted = false) (w : Word) (i : Instr) (u : State) (hf : s.fetch = .ok w) (hd : decode w = some i)
      (he : exec i (s.invoke rnd) = .next u) (ht : t = u.close ⟨.ok, 0⟩)

theorem cycle_cases {rnd : Byte} {s t : State} (h : cycle rnd s = .next t) : CycleCase rnd s t := by
  unfold cycle at h
  split at h
  · next hh => cases h; exact .halted hh rfl
  · next hh =>
    have hh : s.halted = false := by simpa using hh
    split at h
    · next a hf => cases h; exact .badFetch hh a hf rfl
    · next w hf =>
      unfold State.runWord at h
      split at h
      · next hd =>
        cases h
        refine .unrecognized hh w hf hd ?_
        rw [State.close, if_neg (by simpa [State.halted] using hh)]; rfl
      · next i hd =>
        split at h
        · next u he => cases h; exact .executed hh w i u hf hd he rfl
        · cases h
        · cases h

/-- Every cycle returns (R92). -/
theorem cycle_next (rnd : Byte) (s : State) : ∃ t, cycle rnd s = .next t := by
  unfold cycle
  split
  · exact ⟨_, rfl⟩
  · split
    · exact ⟨_, rfl⟩
    · next w _ =>
      unfold State.runWord
      split
      · exact ⟨_, rfl⟩
      · next i _ =>
        obtain ⟨u, hu⟩ := exec_next i (s.invoke rnd)
        rw [hu]; exact ⟨_, rfl⟩

/-- The end of a cycle touches the timers and the ports only. -/
theorem State.close_eq (s : State) (status : Status) :
    s.close status = s.report s.halt false ∨ s.close status = s.tick.report status s.toneDue := by
  unfold State.close; split <;> simp

end Sys2Proof.Machine
end

