-- ==== Sys2Proof/Laws/Display.lean ====
section
/-! SUPPORT. The laws of the XOR blitter: one toggle, a sequence of toggles in closed form, and the cells a sprite lands on. -/

namespace Sys2Proof.Machine

theorem fbGet_fbToggle (fb : Framebuffer) (t u : FbCell) :
    fbGet (fbToggle fb t) u = (fbGet fb u ^^ decide (u = t)) := by
  obtain ⟨r, c⟩ := t
  obtain ⟨r', c'⟩ := u
  simp only [fbGet, fbToggle, Fin.getElem_fin, Vector.getElem_set]
  by_cases hr : r' = r
  · subst hr
    simp only [if_true, BitVec.getLsbD_xor, BitVec.getLsbD_twoPow, Prod.mk.injEq, true_and]
    congr 1
    by_cases hc : c' = c
    · subst hc; simp
    · have : c.val ≠ c'.val := fun e => hc (Fin.ext e.symm)
      simp [hc, this]
  · rw [if_neg fun e => hr (Fin.ext e.symm)]
    simp [hr]

@[simp] theorem fbGet_fbClear (u : FbCell) : fbGet fbClear u = false := by simp [fbGet, fbClear]

/-- Two framebuffers are equal when all their cells are. -/
theorem fb_ext {a b : Framebuffer} (h : ∀ u, fbGet a u = fbGet b u) : a = b := by
  apply Vector.ext
  intro r hr
  apply BitVec.eq_of_getLsbD_eq
  intro c hc
  exact h (⟨r, hr⟩, ⟨c, hc⟩)

/-- Toggling distinct cells: a cell ends flipped iff it is among them, and the flag says whether one of them was on. -/
theorem blit_spec (cells : List FbCell) (fb : Framebuffer) (hit : Bool) (h : cells.Nodup) :
    (∀ u, fbGet (blit fb hit cells).1 u = (fbGet fb u ^^ decide (u ∈ cells))) ∧
    (blit fb hit cells).2 = (hit || cells.any (fbGet fb)) := by
  induction cells generalizing fb hit with
  | nil => simp [blit]
  | cons t rest ih =>
    obtain ⟨ht, hr⟩ := List.nodup_cons.1 h
    obtain ⟨ih1, ih2⟩ := ih (fbToggle fb t) (hit || fbGet fb t) hr
    refine ⟨fun u => ?_, ?_⟩
    · rw [blit, ih1, fbGet_fbToggle]
      by_cases hu : u = t
      · subst hu; simp [ht]
      · simp [hu]
    · have hsame : rest.any (fbGet (fbToggle fb t)) = rest.any (fbGet fb) := by
        apply Bool.eq_iff_iff.2
        simp only [List.any_eq_true]
        constructor <;>
        · rintro ⟨u, hu, hg⟩
          have : u ≠ t := fun e => ht (e ▸ hu)
          exact ⟨u, hu, by simpa [fbGet_fbToggle, this] using hg⟩
      rw [blit, ih2, hsame]
      simp [Bool.or_assoc]

/-! ### The pixels of a sprite -/

theorem mem_spriteColumns {row : Byte} {i : Nat} : i ∈ spriteColumns row ↔ i < 8 ∧ row.getLsbD (7 - i) = true := by
  simp [spriteColumns]

/-- The pixels are the set bits, each at its row and column (R96). -/
theorem mem_spritePixels {cx cy : Nat} {rows : List Byte} {p : Nat × Nat} :
    p ∈ spritePixels cx cy rows ↔
      ∃ j i, i < 8 ∧ (∃ h : j < rows.length, (rows[j]).getLsbD (7 - i) = true) ∧ p = (cx + i, cy + j) := by
  induction rows generalizing cy with
  | nil => simp [spritePixels]
  | cons row rest ih =>
    simp only [spritePixels, List.mem_append, List.mem_map, mem_spriteColumns, ih]
    constructor
    · rintro (⟨i, ⟨hi, hb⟩, rfl⟩ | ⟨j, i, hi, ⟨hj, hb⟩, rfl⟩)
      · exact ⟨0, i, hi, ⟨by simp, by simpa using hb⟩, rfl⟩
      · exact ⟨j + 1, i, hi, ⟨by simpa using hj, by simpa using hb⟩, by simp; omega⟩
    · rintro ⟨j, i, hi, ⟨hj, hb⟩, rfl⟩
      cases j with
      | zero => exact .inl ⟨i, ⟨hi, by simpa using hb⟩, rfl⟩
      | succ j => exact .inr ⟨j, i, hi, ⟨by simpa using hj, by simpa using hb⟩, by simp; omega⟩

theorem spritePixels_nodup (cx cy : Nat) (rows : List Byte) : (spritePixels cx cy rows).Nodup := by
  induction rows generalizing cy with
  | nil => simp [spritePixels]
  | cons row rest ih =>
    rw [spritePixels, List.nodup_append]
    refine ⟨?_, ih _, ?_⟩
    · apply List.Nodup.map
      · intro a b h; simpa using h
      · exact List.nodup_range.filter _
    · intro p hp q hq hpq
      subst hpq
      obtain ⟨i, -, rfl⟩ := List.mem_map.1 hp
      obtain ⟨j, i', -, -, h⟩ := mem_spritePixels.1 hq
      simp at h; omega

/-- No two pixels of one sprite land on the same cell: a sprite is smaller than the wrap period (R96). -/
theorem sprite_cells_nodup (edge : EdgePolicy) (cx cy : Nat) (rows : List Byte) (h : rows.length ≤ 32) :
    ((spritePixels cx cy rows).filterMap (target edge)).Nodup := by
  rw [List.Nodup, List.pairwise_filterMap]
  refine List.Pairwise.imp_of_mem ?_ (spritePixels_nodup cx cy rows)
  intro p q hp hq hne c hc d hd hcd
  subst hcd
  obtain ⟨j, i, hi, ⟨hj, -⟩, rfl⟩ := mem_spritePixels.1 hp
  obtain ⟨j', i', hi', ⟨hj', -⟩, rfl⟩ := mem_spritePixels.1 hq
  have key : ∀ k l, target edge (k, l) = some c → c = (Fin.ofNat 32 l, Fin.ofNat 64 k) := by
    intro k l h
    unfold target at h
    split at h
    · cases edge <;> simp at h; exact h.symm
    · simpa using h.symm
  have e := (key _ _ hc).symm.trans (key _ _ hd)
  simp only [Prod.mk.injEq, Fin.ext_iff, Fin.ofNat_eq_cast, Fin.val_natCast] at e
  exact hne (by simp; omega)

/-- What `target` gives, in the words of R97. -/
theorem target_eq_some {edge : EdgePolicy} {col row : Nat} {t : FbCell} :
    target edge (col, row) = some t ↔
      (col ≤ 63 ∧ row ≤ 31 ∧ t.1.val = row ∧ t.2.val = col) ∨
      (edge = .wrap ∧ t.1.val = row % 32 ∧ t.2.val = col % 64) := by
  obtain ⟨⟨r, hr⟩, ⟨c, hc⟩⟩ := t
  unfold target offGrid
  by_cases h : col ≤ 63 ∧ row ≤ 31
  · rw [if_neg (by simp; omega)]
    simp [Fin.ext_iff]; omega
  · rw [if_pos (by simp; omega)]
    cases edge <;> simp [Fin.ext_iff] <;> omega

end Sys2Proof.Machine
end

