-- ==== Sys2Proof/Laws/PerInstr.lean ====
section
/-! SUPPORT. Statements about every instruction, one lemma per constructor. `EncodedRow`: the encoded word is selected by the
instruction's own row of the opcode map (R66). -/

namespace Sys2Proof.Laws.EncodedRow

/-- The word of an instruction matches the mask and value of its row (R66). -/
def Statement (i : Instr) : Prop := (opcodeMap[i.rowIndex.val]?.map (fun r => r.selects (encode i))) = some true

/-- The family of a word above its low 12 bits. -/
theorem family_part {a b : Nat} (h : b < 4096) : (a * 4096 + b) / 4096 = a := by
  rw [Nat.mul_comm, Nat.mul_add_div (by decide), Nat.div_eq_of_lt h, Nat.add_zero]

/-- A word of format NNN is selected by a row with mask 0xF000 and its family. -/
theorem row_NNN {v : Word} {op : BitVec 4} (nnn : Imm12) (h : op.toNat * 4096 = v.toNat) :
    (OpRow.mk 0xF000 v).selects (encNNN op nnn) = true := by
  rw [selects_F000, encNNN_toNat, family_part nnn.isLt, h]

/-- A word of format XKK is selected by a row with mask 0xF000 and its family. -/
theorem row_XKK {v : Word} {op : BitVec 4} (x : RegIx) (kk : Byte) (h : op.toNat * 4096 = v.toNat) :
    (OpRow.mk 0xF000 v).selects (encXKK op x kk) = true := by
  have b := kk.isLt
  rw [selects_F000, encXKK_toNat, Nat.add_assoc, family_part (by omega), h]

/-- A word of format XYN is selected by a row with mask 0xF000 and its family. -/
theorem row_XYN {v : Word} {op : BitVec 4} (x y : RegIx) (n : BitVec 4) (h : op.toNat * 4096 = v.toNat) :
    (OpRow.mk 0xF000 v).selects (encXYN op x y n) = true := by
  have b := n.isLt
  rw [selects_F000, encXYN_toNat, Nat.add_assoc, Nat.add_assoc, family_part (by omega), h]

/-- A word of format XYS is selected by a row with mask 0xF00F, its family and its low nibble. -/
theorem row_XYS {v : Word} {op n : BitVec 4} (x y : RegIx) (h : op.toNat * 4096 + n.toNat = v.toNat) :
    (OpRow.mk 0xF00F v).selects (encXYN op x y n) = true := by
  have b := n.isLt
  rw [selects_F00F, encXYN_toNat, Nat.add_assoc, Nat.add_assoc, family_part (by omega), ← h]
  omega

/-- A word of format XSS is selected by a row with mask 0xF0FF, its family and its low byte. -/
theorem row_XSS {v : Word} {op : BitVec 4} {kk : Byte} (x : RegIx) (h : op.toNat * 4096 + kk.toNat = v.toNat) :
    (OpRow.mk 0xF0FF v).selects (encXKK op x kk) = true := by
  have b := kk.isLt
  rw [selects_F0FF, encXKK_toNat, Nat.add_assoc, family_part (by omega), ← h]
  omega

theorem cls : Statement .cls := rfl
theorem ret : Statement .ret := rfl
theorem jp (nnn : Imm12) : Statement (.jp nnn) := congrArg some (row_NNN nnn rfl)
theorem call (nnn : Imm12) : Statement (.call nnn) := congrArg some (row_NNN nnn rfl)
theorem seImm (x : RegIx) (kk : Byte) : Statement (.seImm x kk) := congrArg some (row_XKK x kk rfl)
theorem sneImm (x : RegIx) (kk : Byte) : Statement (.sneImm x kk) := congrArg some (row_XKK x kk rfl)
theorem seReg (x : RegIx) (y : RegIx) : Statement (.seReg x y) := congrArg some (row_XYS x y rfl)
theorem ldImm (x : RegIx) (kk : Byte) : Statement (.ldImm x kk) := congrArg some (row_XKK x kk rfl)
theorem addImm (x : RegIx) (kk : Byte) : Statement (.addImm x kk) := congrArg some (row_XKK x kk rfl)
theorem ldReg (x : RegIx) (y : RegIx) : Statement (.ldReg x y) := congrArg some (row_XYS x y rfl)
theorem orReg (x : RegIx) (y : RegIx) : Statement (.orReg x y) := congrArg some (row_XYS x y rfl)
theorem andReg (x : RegIx) (y : RegIx) : Statement (.andReg x y) := congrArg some (row_XYS x y rfl)
theorem xorReg (x : RegIx) (y : RegIx) : Statement (.xorReg x y) := congrArg some (row_XYS x y rfl)
theorem addReg (x : RegIx) (y : RegIx) : Statement (.addReg x y) := congrArg some (row_XYS x y rfl)
theorem subReg (x : RegIx) (y : RegIx) : Statement (.subReg x y) := congrArg some (row_XYS x y rfl)
theorem shr (x : RegIx) (y : RegIx) : Statement (.shr x y) := congrArg some (row_XYS x y rfl)
theorem subnReg (x : RegIx) (y : RegIx) : Statement (.subnReg x y) := congrArg some (row_XYS x y rfl)
theorem shl (x : RegIx) (y : RegIx) : Statement (.shl x y) := congrArg some (row_XYS x y rfl)
theorem sneReg (x : RegIx) (y : RegIx) : Statement (.sneReg x y) := congrArg some (row_XYS x y rfl)
theorem ldI (nnn : Imm12) : Statement (.ldI nnn) := congrArg some (row_NNN nnn rfl)
theorem jpV0 (nnn : Imm12) : Statement (.jpV0 nnn) := congrArg some (row_NNN nnn rfl)
theorem rnd (x : RegIx) (kk : Byte) : Statement (.rnd x kk) := congrArg some (row_XKK x kk rfl)
theorem drw (x : RegIx) (y : RegIx) (n : Fin 16) : Statement (.drw x y n) := congrArg some (row_XYN x y _ rfl)
theorem skp (x : RegIx) : Statement (.skp x) := congrArg some (row_XSS x rfl)
theorem sknp (x : RegIx) : Statement (.sknp x) := congrArg some (row_XSS x rfl)
theorem ldVxDt (x : RegIx) : Statement (.ldVxDt x) := congrArg some (row_XSS x rfl)
theorem ldVxK (x : RegIx) : Statement (.ldVxK x) := congrArg some (row_XSS x rfl)
theorem ldDtVx (x : RegIx) : Statement (.ldDtVx x) := congrArg some (row_XSS x rfl)
theorem ldStVx (x : RegIx) : Statement (.ldStVx x) := congrArg some (row_XSS x rfl)
theorem addI (x : RegIx) : Statement (.addI x) := congrArg some (row_XSS x rfl)
theorem ldF (x : RegIx) : Statement (.ldF x) := congrArg some (row_XSS x rfl)
theorem ldB (x : RegIx) : Statement (.ldB x) := congrArg some (row_XSS x rfl)
theorem ldMemVx (x : RegIx) : Statement (.ldMemVx x) := congrArg some (row_XSS x rfl)
theorem ldVxMem (x : RegIx) : Statement (.ldVxMem x) := congrArg some (row_XSS x rfl)

end Sys2Proof.Laws.EncodedRow
end

