-- ==== Sys2Proof/WellFormed.lean ====
section
/-! DEFINITION. Well-formedness: the spellings an assembler emits (R71) and the program images the loader accepts (R148).
An operand out of its field's range cannot be written at all: `Instr` holds each field at its own width (R61). -/

namespace Sys2Proof

/-- `SHR Vx` and `SHL Vx` take one operand and assemble with `y = 0` (R71); every other instruction has only the operands
its mnemonic names. The decoder reads all 16 values of `y` (R69), so an instruction that fails this check still runs (log 15). -/
def Instr.wellFormed : Instr → Bool
  | .cls => true
  | .ret => true
  | .jp _ => true
  | .call _ => true
  | .seImm _ _ => true
  | .sneImm _ _ => true
  | .seReg _ _ => true
  | .ldImm _ _ => true
  | .addImm _ _ => true
  | .ldReg _ _ => true
  | .orReg _ _ => true
  | .andReg _ _ => true
  | .xorReg _ _ => true
  | .addReg _ _ => true
  | .subReg _ _ => true
  | .shr _ y => y == 0
  | .subnReg _ _ => true
  | .shl _ y => y == 0
  | .sneReg _ _ => true
  | .ldI _ => true
  | .jpV0 _ => true
  | .rnd _ _ => true
  | .drw _ _ _ => true
  | .skp _ => true
  | .sknp _ => true
  | .ldVxDt _ => true
  | .ldVxK _ => true
  | .ldDtVx _ => true
  | .ldStVx _ => true
  | .addI _ => true
  | .ldF _ => true
  | .ldB _ => true
  | .ldMemVx _ => true
  | .ldVxMem _ => true

/-- A program image the loader accepts: at most 3584 bytes, no header and no other check (R148, R160). -/
def imageFits (image : List Byte) : Bool := decide (image.length ≤ Config.imageMax)

end Sys2Proof
end

