-- ==== Sys2Proof/Tests/Slice0.lean ====
section
/-! SUPPORT. The model's own tests. Words are written out from the opcode map (R62, R66); the expected results of one cycle
are the vectors of 95_test_vectors.md, named in each test; a witness shows that the hypotheses of an obligation can be met,
at the ends of their ranges. -/

open Sys2Proof Sys2Proof.Machine

namespace Sys2Proof.Tests

/-! ### Well-formedness -/

theorem test_wellFormed_refuses_shr_with_y : Instr.wellFormed (.shr 1 2) = false := by decide
theorem test_wellFormed_refuses_shl_with_y : Instr.wellFormed (.shl 1 2) = false := by decide
theorem test_wellFormed_accepts_shifts_without_y :
    Instr.wellFormed (.shr 1 0) = true ∧ Instr.wellFormed (.shl 15 0) = true := by decide
theorem test_imageFits_refuses_3585 : imageFits (List.replicate 3585 0x00) = false := by
  rw [imageFits, List.length_replicate]; decide
theorem test_imageFits_accepts_3584 : imageFits (List.replicate 3584 0x00) = true := by
  rw [imageFits, List.length_replicate]; decide

/-! ### Decoding: one word per constructor, bit by bit -/

theorem test_decode_cls : decode 0b0000000011100000#16 = some .cls := by decide
theorem test_decode_ret : decode 0b0000000011101110#16 = some .ret := by decide
theorem test_decode_jp : decode 0b0001101010111100#16 = some (.jp 0xABC) := by decide
theorem test_decode_call : decode 0b0010001101000101#16 = some (.call 0x345) := by decide
theorem test_decode_seImm : decode 0b0011101001000010#16 = some (.seImm 10 0x42) := by decide
theorem test_decode_sneImm : decode 0b0100101001000010#16 = some (.sneImm 10 0x42) := by decide
theorem test_decode_seReg : decode 0b0101000100100000#16 = some (.seReg 1 2) := by decide
theorem test_decode_ldImm : decode 0b0110111100010010#16 = some (.ldImm 15 0x12) := by decide
theorem test_decode_addImm : decode 0b0111000000000001#16 = some (.addImm 0 0x01) := by decide
theorem test_decode_ldReg : decode 0b1000111100100000#16 = some (.ldReg 15 2) := by decide
theorem test_decode_orReg : decode 0b1000000100100001#16 = some (.orReg 1 2) := by decide
theorem test_decode_andReg : decode 0b1000000100100010#16 = some (.andReg 1 2) := by decide
theorem test_decode_xorReg : decode 0b1000000100100011#16 = some (.xorReg 1 2) := by decide
theorem test_decode_addReg : decode 0b1000000111110100#16 = some (.addReg 1 15) := by decide
theorem test_decode_subReg : decode 0b1000000100100101#16 = some (.subReg 1 2) := by decide
theorem test_decode_shr : decode 0b1000000100100110#16 = some (.shr 1 2) := by decide
theorem test_decode_subnReg : decode 0b1000000100100111#16 = some (.subnReg 1 2) := by decide
theorem test_decode_shl : decode 0b1000000100101110#16 = some (.shl 1 2) := by decide
theorem test_decode_sneReg : decode 0b1001000100100000#16 = some (.sneReg 1 2) := by decide
theorem test_decode_ldI : decode 0b1010001000010000#16 = some (.ldI 0x210) := by decide
theorem test_decode_jpV0 : decode 0b1011111111111111#16 = some (.jpV0 0xFFF) := by decide
theorem test_decode_rnd : decode 0b1100001100001111#16 = some (.rnd 3 0x0F) := by decide
theorem test_decode_drw : decode 0b1101000100100011#16 = some (.drw 1 2 3) := by decide
theorem test_decode_skp : decode 0b1110000110011110#16 = some (.skp 1) := by decide
theorem test_decode_sknp : decode 0b1110000110100001#16 = some (.sknp 1) := by decide
theorem test_decode_ldVxDt : decode 0b1111010100000111#16 = some (.ldVxDt 5) := by decide
theorem test_decode_ldVxK : decode 0b1111001100001010#16 = some (.ldVxK 3) := by decide
theorem test_decode_ldDtVx : decode 0b1111010100010101#16 = some (.ldDtVx 5) := by decide
theorem test_decode_ldStVx : decode 0b1111010100011000#16 = some (.ldStVx 5) := by decide
theorem test_decode_addI : decode 0b1111001100011110#16 = some (.addI 3) := by decide
theorem test_decode_ldF : decode 0b1111000000101001#16 = some (.ldF 0) := by decide
theorem test_decode_ldB : decode 0b1111000000110011#16 = some (.ldB 0) := by decide
theorem test_decode_ldMemVx : decode 0b1111111101010101#16 = some (.ldMemVx 15) := by decide
theorem test_decode_ldVxMem : decode 0b1111010001100101#16 = some (.ldVxMem 4) := by decide

/-- Vectors X1 to X7: words of families 0, 5, 8, 9, E and F that match no row. -/
theorem test_decode_unrecognized :
    ([0x0000, 0xFFFF, 0x00E1, 0x00FE, 0x0123, 0x01E0, 0x0FEE, 0x5121, 0x9AB5, 0x512F, 0x8128, 0x812D, 0x812F, 0xE19F,
      0xE0A0, 0xE09F, 0xF000, 0xF11F, 0xF156, 0xF10B] : List Word).all (fun w => decode w == none) = true := by decide

/-- The table numbers a word's bits as the word does; it lies in memory high byte first (R60). -/
theorem test_decodeTableWord :
    decodeTableWord 16 0xD123 = some (.drw 1 2 3) ∧ decodeTableWord 16 0xFFFF = none := by decide

theorem test_decodeBytes_short : decodeBytes [0xA2] = .error .tooShort := by rfl

/-! ### One cycle on a small state -/

/-- The reset state with the OPEN parameters set by name: the edge policy given, the font the spec suggests (R43). -/
def blank (edge : EdgePolicy) : State := { State.reset with params := { edge := edge, font := Config.suggestedFont } }

/-- `blank` under `wrap`, with some registers set. -/
def regs (l : List (RegIx × Byte)) : State := l.foldl (fun s p => s.setReg p.1 p.2) (blank .wrap)

/-- One cycle with the random byte and the word given; the check fails where the cycle gives no next state. -/
def afterRnd (rnd : Byte) (w : Nat) (s : State) (check : State → Bool) : Bool :=
  match cycle rnd (s.withFetchWord 16 w) with
  | .next t => check t
  | .fault _ => false
  | .refused _ => false

/-- One cycle with `rnd = 0`, the convention of 95_test_vectors.md. -/
def after (w : Nat) (s : State) (check : State → Bool) : Bool := afterRnd 0x00 w s check

/-- The status a cycle returned. -/
def told (t : State) (c : Code) (info : Word) : Bool := t.ports.status == ⟨c, info⟩

/-- Exactly these cells, given as (column, row), each once, are lit. -/
def lit (t : State) (cells : List (Fin 64 × Fin 32)) : Bool :=
  t.fb == cells.foldl (fun fb c => fbToggle fb (c.2, c.1)) fbClear

-- X2, X9, X10, X11
theorem test_unrecognized_ticks : after 0xFFFF { blank .wrap with dt := 3, st := 1 } (fun t =>
    told t .unknownOpcode 0xFFFF && t.ports.tone && t.pc == 0x200 && t.dt == 2 && t.st == 0 && !t.halted) = true := by decide
theorem test_fetch_last_word : after 0x6A55 { blank .wrap with pc := 0xFFE } (fun t =>
    t.reg 10 == 0x55 && t.pc == 0x1000 && told t .ok 0) = true := by decide
theorem test_fetch_second_byte_missing : after 0 { blank .wrap with pc := 0xFFF } (fun t =>
    told t .addressOutOfRange 0x1000 && t.halt == ⟨.addressOutOfRange, 0x1000⟩ && t.pc == 0xFFF) = true := by decide
theorem test_fetch_fault_no_tick : after 0 { blank .wrap with pc := 0x1000, dt := 5 } (fun t =>
    told t .addressOutOfRange 0x1000 && t.dt == 5) = true := by decide
-- X8
theorem test_fetch_odd_pc : after 0x6A55 { blank .wrap with pc := 0x201 } (fun t =>
    t.reg 10 == 0x55 && t.pc == 0x203) = true := by decide

-- DR0
theorem test_cls : after 0x00E0 { (regs [(15, 7)]) with fb := fbToggle (fbToggle fbClear (0, 0)) (31, 63) } (fun t =>
    t.fb == fbClear && t.dirty && t.reg vf == 7 && t.pc == 0x202) = true := by decide

/-- The sprite of DR1 to DR3 at 0x300, the registers and the policy given. -/
def sprite (edge : EdgePolicy) (x y flag : Byte) : State :=
  { ((regs [(1, x), (2, y), (15, flag)]).memWrites 0x300 [0xFF, 0x81, 0xFF]) with
    i := 0x300, params := { edge := edge, font := Config.suggestedFont } }

-- DR1w, DR1c, DR1f
theorem test_drw_wrap : after 0xD123 (sprite .wrap 60 30 9) (fun t =>
    lit t [(60, 30), (61, 30), (62, 30), (63, 30), (0, 30), (1, 30), (2, 30), (3, 30), (60, 31), (3, 31),
      (60, 0), (61, 0), (62, 0), (63, 0), (0, 0), (1, 0), (2, 0), (3, 0)] &&
    t.reg vf == 0 && t.dirty && t.pc == 0x202) = true := by decide
theorem test_drw_clip : after 0xD123 (sprite .clip 60 30 9) (fun t =>
    lit t [(60, 30), (61, 30), (62, 30), (63, 30), (60, 31)] && t.reg vf == 0 && t.dirty && t.pc == 0x202) = true := by
  decide
theorem test_drw_fault : after 0xD123 (sprite .fault 60 30 9) (fun t =>
    told t .drawOutOfRange 0xD123 && t.halt == ⟨.drawOutOfRange, 0xD123⟩ && t.fb == fbClear && t.reg vf == 9 && !t.dirty &&
    t.pc == 0x200) = true := by decide
-- DR6, DR7
theorem test_drw_leaves_memory : after 0xD122 { (regs [(1, 5), (2, 5), (15, 9)]) with i := 0xFFF } (fun t =>
    told t .addressOutOfRange 0x1000 && t.reg vf == 9 && t.fb == fbClear && !t.dirty && t.pc == 0x200) = true := by decide
theorem test_drw_index_out_of_memory : after 0xD121 { (regs [(15, 9)]) with i := 0xFFFF } (fun t =>
    told t .addressOutOfRange 0xFFFF && t.reg vf == 9) = true := by decide
-- DR4
theorem test_drw_no_rows : after 0xD120 { (regs [(1, 5), (2, 5), (15, 9)]) with i := 0x1234 } (fun t =>
    t.reg vf == 0 && t.dirty && t.pc == 0x202 && t.fb == fbClear && told t .ok 0) = true := by decide
-- DR9, DR11
theorem test_drw_collides : after 0xD011
    { ((blank .wrap).memWrites 0x300 [0x30]) with i := 0x300, fb := fbToggle fbClear (0, 3) } (fun t =>
    lit t [(2, 0)] && t.reg vf == 1) = true := by decide
theorem test_drw_column_from_old_vf : after 0xDF11
    { ((regs [(15, 3), (1, 2)]).memWrites 0x300 [0x80]) with i := 0x300 } (fun t =>
    lit t [(3, 2)] && t.reg vf == 0) = true := by decide
-- DR13: the glyph of 0, with the suggested font
theorem test_drw_glyph : after 0xD015 (blank .wrap) (fun t =>
    lit t [(0, 0), (1, 0), (2, 0), (3, 0), (0, 1), (3, 1), (0, 2), (3, 2), (0, 3), (3, 3), (0, 4), (1, 4), (2, 4), (3, 4)] &&
    t.reg vf == 0) = true := by decide

-- F1, F2
theorem test_ret : after 0x00EE { blank .wrap with sp := 1, stack := (Vector.replicate 16 0x0000).set 0 0x204 } (fun t =>
    t.pc == 0x206 && t.sp == 0 && t.stack[0] == 0x204) = true := by decide
theorem test_ret_underflow : after 0x00EE { blank .wrap with dt := 4 } (fun t =>
    told t .stackUnderflow 0x200 && t.halt == ⟨.stackUnderflow, 0x200⟩ && t.pc == 0x200 && t.dt == 4) = true := by decide
-- F4
theorem test_jp : after 0x1ABC (blank .wrap) (fun t => t.pc == 0xABC && told t .ok 0) = true := by decide
-- F7, F8
theorem test_call_sixteenth : after 0x2345 { blank .wrap with sp := 15, stack := Vector.replicate 16 0x111 } (fun t =>
    t.pc == 0x345 && t.sp == 16 && t.stack[15] == 0x200 && t.stack[14] == 0x111) = true := by decide
theorem test_call_overflow : after 0x2345 { blank .wrap with sp := 16, stack := Vector.replicate 16 0x111, st := 1 } (fun t =>
    told t .stackOverflow 0x200 && !t.ports.tone && t.pc == 0x200 && t.sp == 16 && t.st == 1 && t.stack[15] == 0x111) =
    true := by decide
-- F9, F10
theorem test_jpV0 : after 0xB300 (regs [(0, 0x10), (3, 0x77)]) (fun t => t.pc == 0x310) = true := by decide
theorem test_jpV0_not_reduced : after 0xBFFF (regs [(0, 0xFF)]) (fun t => t.pc == 0x10FE && told t .ok 0) = true := by decide

-- K1 to K10
theorem test_seImm : (after 0x3A42 (regs [(10, 0x42)]) (fun t => t.pc == 0x204) &&
    after 0x3A42 (regs [(10, 0x43)]) (fun t => t.pc == 0x202)) = true := by decide
theorem test_sneImm : (after 0x4A42 (regs [(10, 0x42)]) (fun t => t.pc == 0x202) &&
    after 0x4A42 (regs [(10, 0x43)]) (fun t => t.pc == 0x204)) = true := by decide
theorem test_seReg : (after 0x5120 (regs [(1, 7), (2, 7)]) (fun t => t.pc == 0x204) &&
    after 0x5120 (regs [(1, 7), (2, 8)]) (fun t => t.pc == 0x202)) = true := by decide
theorem test_sneReg : (after 0x9120 (regs [(1, 7), (2, 7)]) (fun t => t.pc == 0x202) &&
    after 0x9120 (regs [(1, 7), (2, 8)]) (fun t => t.pc == 0x204)) = true := by decide
-- K11, K12, K15
theorem test_skp : (after 0xE19E (setKey 5 true (regs [(1, 5)])) (fun t => t.pc == 0x204) &&
    after 0xE19E (setKey 4 true (regs [(1, 5)])) (fun t => t.pc == 0x202)) = true := by decide
theorem test_skp_no_masking : after 0xE19E (setKey 0 true (regs [(1, 16)])) (fun t =>
    told t .keyIndexOutOfRange 16 && t.halt == ⟨.keyIndexOutOfRange, 16⟩ && t.pc == 0x200) = true := by decide
-- K13, K14, K16
theorem test_sknp : (after 0xE1A1 (setKey 5 true (regs [(1, 5)])) (fun t => t.pc == 0x202) &&
    after 0xE1A1 (setKey 4 true (regs [(1, 5)])) (fun t => t.pc == 0x204)) = true := by decide
theorem test_sknp_index : after 0xE1A1 { (regs [(1, 255)]) with dt := 2 } (fun t =>
    told t .keyIndexOutOfRange 255 && t.dt == 2) = true := by decide

-- L1 to L8
theorem test_ldImm : after 0x6F12 (blank .wrap) (fun t => t.reg vf == 0x12 && t.pc == 0x202) = true := by decide
theorem test_addImm : after 0x7001 (regs [(0, 0xFF), (15, 5)]) (fun t => t.reg 0 == 0 && t.reg vf == 5) = true := by decide
theorem test_ldI : after 0xAFFF (blank .wrap) (fun t => t.i == 0x0FFF && t.pc == 0x202) = true := by decide
theorem test_rnd : afterRnd 0xA7 0xC30F (regs [(3, 9)]) (fun t => t.reg 3 == 0x07 && t.pc == 0x202) = true := by decide

-- A1, A3 to A5
theorem test_ldReg : after 0x8120 (regs [(1, 1), (2, 0xAB), (15, 9)]) (fun t =>
    t.reg 1 == 0xAB && t.reg 2 == 0xAB && t.reg vf == 9 && t.pc == 0x202) = true := by decide
theorem test_orReg : after 0x8121 (regs [(1, 0xF0), (2, 0x0F), (15, 9)]) (fun t =>
    t.reg 1 == 0xFF && t.reg vf == 9) = true := by decide
theorem test_andReg : after 0x8122 (regs [(1, 0xF0), (2, 0x3C), (15, 9)]) (fun t =>
    t.reg 1 == 0x30 && t.reg vf == 9) = true := by decide
theorem test_xorReg : after 0x8123 (regs [(1, 0xF0), (2, 0x3C), (15, 9)]) (fun t =>
    t.reg 1 == 0xCC && t.reg vf == 9) = true := by decide
-- A8, A15
theorem test_addReg : after 0x8124 (regs [(1, 200), (2, 55), (15, 9)]) (fun t =>
    t.reg 1 == 0xFF && t.reg vf == 0 && t.pc == 0x202) = true := by decide
theorem test_addReg_vf_twice : after 0x8FF4 (regs [(15, 200)]) (fun t => t.reg vf == 0x02) = true := by decide
-- A19, A26
theorem test_subReg : after 0x8125 (regs [(1, 200), (2, 100), (15, 1)]) (fun t =>
    t.reg 1 == 0x64 && t.reg vf == 0 && t.pc == 0x202) = true := by decide
theorem test_subReg_from_new_flag : after 0x80F5 (regs [(0, 10), (15, 3)]) (fun t =>
    t.reg 0 == 0x09 && t.reg vf == 1) = true := by decide
-- A27, A30
theorem test_shr : after 0x8126 (regs [(1, 5), (2, 0xFF)]) (fun t =>
    t.reg 1 == 0x02 && t.reg vf == 1 && t.reg 2 == 0xFF && t.pc == 0x202) = true := by decide
theorem test_shr_vf : after 0x8F06 (regs [(15, 7)]) (fun t => t.reg vf == 0x00) = true := by decide
-- A33, A36
theorem test_subnReg : after 0x8127 (regs [(1, 5), (2, 3)]) (fun t =>
    t.reg 1 == 0xFE && t.reg vf == 1 && t.pc == 0x202) = true := by decide
theorem test_subnReg_from_new_flag : after 0x80F7 (regs [(0, 10), (15, 3)]) (fun t =>
    t.reg 0 == 0xF7 && t.reg vf == 1) = true := by decide
-- A39, A41
theorem test_shl : after 0x812E (regs [(1, 0x05), (2, 0xEE)]) (fun t =>
    t.reg 1 == 0x0A && t.reg vf == 5 && t.reg 2 == 0xEE && t.pc == 0x202) = true := by decide
theorem test_shl_vf : after 0x8F0E (regs [(15, 0xFF)]) (fun t => t.reg vf == 0x0E) = true := by decide

-- T1, T4, T8, T10, T13
theorem test_ldVxDt : after 0xF507 { blank .wrap with dt := 6 } (fun t => t.reg 5 == 6 && t.dt == 5) = true := by decide
theorem test_ldDtVx : after 0xF515 (regs [(5, 10)]) (fun t => t.dt == 9 && t.pc == 0x202) = true := by decide
theorem test_ldStVx : after 0xF518 (regs [(5, 1)]) (fun t => t.st == 0 && t.ports.tone) = true := by decide
theorem test_ldStVx_zero : after 0xF518 { blank .wrap with st := 1 } (fun t => t.st == 0 && !t.ports.tone) = true := by decide
theorem test_addI : after 0xF31E { (regs [(3, 2), (15, 9)]) with i := 0xFFFF } (fun t =>
    t.i == 0x0001 && t.reg vf == 9 && t.pc == 0x202) = true := by decide

/-- The state of NO1 to NO5. -/
def idle : State := { (regs [(0, 123), (3, 0x42)]) with i := 0xFFF, dt := 2, st := 1 }

/-- What NO1 to NO5 expect: `PC` and the timers move, nothing else does. -/
def onlyTicked (w : Nat) : Bool := after w idle (fun t =>
  t.pc == 0x202 && t.dt == 1 && t.st == 0 && t.ports.tone && told t .ok 0 && t.v == idle.v && t.i == idle.i &&
  t.mem == (idle.withFetchWord 16 w).mem && t.key == idle.key)

theorem test_ldVxK : onlyTicked 0xF30A = true := by decide
theorem test_ldF : onlyTicked 0xF029 = true := by decide
theorem test_ldB : onlyTicked 0xF033 = true := by decide
theorem test_ldMemVx : onlyTicked 0xFF55 = true := by decide
theorem test_ldVxMem : onlyTicked 0xF465 = true := by decide

/-- `step` itself, whose random byte is free, runs the word that `withFetchWord` stores: L1. -/
theorem test_step_runs_fetch_word : ∃ t, step (State.reset.withFetchWord 16 0x6F12) = .next t ∧ t.reg vf = 0x12 :=
  ⟨_, rfl, by decide⟩

-- H2, H3, H6, H7
theorem test_setKey_on_halted : (setKey 3 true { blank .wrap with halt := ⟨.stackUnderflow, 0x200⟩ }).key[3] = true := by
  decide
theorem test_reset_clears_halt : (hostReset { blank .wrap with halt := ⟨.stackUnderflow, 0x200⟩ }).halted = false := by
  decide
theorem test_clearDirty : isDirty (clearDirty { blank .wrap with dirty := true }) = false := by decide

/-! ### Memory -/

theorem test_write_of_background_unlists : (((blank .wrap).memWrites 0x300 [0x12]).memWrites 0x300 [0x00]).mem = [] := by
  decide
theorem test_memory_is_sorted :
    (((blank .wrap).memWrites 0x302 [0x12]).memWrites 0x300 [0x34, 0x56]).mem = [(0x300, 0x34), (0x301, 0x56), (0x302, 0x12)] := by
  decide

/-! ### Witnesses: the hypotheses of the obligations can be met -/

theorem witness_EveryRecognizedWordReencodes : decode 0x8124 = some (.addReg 1 2) := by decide

theorem witness_RowSelectsExactlyItsInstruction :
    opcodeMap[(13 : Fin 34).val]?.map (fun row => row.selects 0x8124) = some true ∧
    opcodeMap[(33 : Fin 34).val]?.map (fun row => row.selects 0xF465) = some true := by decide

/-- One word for each of the six families, recognized and not. -/
theorem witness_SecondaryDecodeByFamily :
    opField 0x00E0 = 0x0 ∧ opField 0x0123 = 0x0 ∧ opField 0x5120 = 0x5 ∧ opField 0x512F = 0x5 ∧ opField 0x9120 = 0x9 ∧
    opField 0x812E = 0x8 ∧ opField 0x812F = 0x8 ∧ opField 0xE19E = 0xE ∧ opField 0xF065 = 0xF ∧ opField 0xFFFF = 0xF := by
  decide

/-! #### DRW -/

/-- One row at address `i`, placed at (x, y). -/
def oneRow (edge : EdgePolicy) (x y : Byte) (i : Word) (row : Byte) : State :=
  { ((regs [(1, x), (2, y)]).memWrites i.toNat [row]) with
    i := i, params := { edge := edge, font := Config.suggestedFont } }

/-- The address clause: `I = 0xFFF` with two rows, and `I = 0xFFFF` with one. -/
theorem witness_DrwFollowsItsRule_address :
    ((2 : Fin 16).val ≠ 0 ∧ 4095 < (oneRow .wrap 0 0 0xFFF 0x80).i.toNat + (2 : Fin 16).val - 1) ∧
    ((1 : Fin 16).val ≠ 0 ∧ 4095 < { blank .wrap with i := 0xFFFF }.i.toNat + (1 : Fin 16).val - 1) := by decide

/-- The policy clause at the first column off the grid, 64, and at the first row, 32. -/
theorem witness_DrwFollowsItsRule_policy :
    (oneRow .fault 64 0 0xFFF 0x80).drawsOffGrid 1 2 1 ∧ (oneRow .fault 63 0 0xFFF 0x40).drawsOffGrid 1 2 1 ∧
    (oneRow .fault 0 32 0x300 0x80).drawsOffGrid 1 2 1 ∧ (oneRow .fault 64 0 0xFFF 0x80).params.edge = .fault ∧
    (oneRow .fault 64 0 0xFFF 0x80).i.toNat + (1 : Fin 16).val - 1 ≤ 4095 :=
  ⟨⟨0, 0, by decide, by decide, by unfold State.spriteBit; decide, .inl (by decide)⟩,
   ⟨0, 1, by decide, by decide, by unfold State.spriteBit; decide, .inl (by decide)⟩,
   ⟨0, 0, by decide, by decide, by unfold State.spriteBit; decide, .inr (by decide)⟩, by decide, by decide⟩

theorem not_off_grid (s : State) (x y : RegIx) (n : Fin 16) (hx : (s.reg x).toNat ≤ 56) (hy : (s.reg y).toNat + n.val ≤ 32) :
    ¬ s.drawsOffGrid x y n := by
  rintro ⟨j, i, hj, hi, -, h⟩; omega

/-- The drawing clause: no rows whatever `I` is, the last byte of memory, the last cell of the grid under `fault`. -/
theorem witness_DrwFollowsItsRule_drawable :
    { blank .wrap with i := 0xFFFF }.drawable 1 2 0 ∧ (oneRow .wrap 255 255 0xFFF 0xFF).drawable 1 2 1 ∧
    (oneRow .clip 255 255 0xFFF 0xFF).drawable 1 2 1 ∧ (oneRow .fault 56 31 0x300 0xFF).drawable 1 2 1 :=
  ⟨⟨.inl rfl, fun h => (by cases h)⟩, ⟨.inr (by decide), fun h => (by cases h)⟩, ⟨.inr (by decide), fun h => (by cases h)⟩,
   ⟨.inr (by decide), fun _ => not_off_grid _ _ _ _ (by decide) (by decide)⟩⟩

/-- A toggled cell that is on, one that is off, and a cell that is not toggled. -/
theorem witness_DrwFollowsItsRule_cells :
    (oneRow .wrap 63 31 0x300 0xC0).toggles 1 2 1 (31, 63) ∧ (oneRow .wrap 63 31 0x300 0xC0).toggles 1 2 1 (31, 0) ∧
    fbGet { oneRow .wrap 63 31 0x300 0xC0 with fb := fbToggle fbClear (31, 63) }.fb (31, 63) = true ∧
    (∀ c, fbGet (oneRow .wrap 63 31 0x300 0xC0).fb c = false) ∧
    ¬ { blank .wrap with i := 0xFFFF }.toggles 1 2 0 (0, 0) :=
  ⟨⟨0, 0, by decide, by decide, by unfold State.spriteBit; decide, .inl (by decide)⟩,
   ⟨0, 1, by decide, by decide, by unfold State.spriteBit; decide, .inr (by decide)⟩, by decide,
   fun c => fbGet_fbClear c, by rintro ⟨j, i, hj, -⟩; exact absurd hj (Nat.not_lt_zero _)⟩

theorem witness_PoliciesAgreeOnTheGrid : ¬ (oneRow .fault 56 31 0x300 0xFF).drawsOffGrid 1 2 1 ∧
    ∃ t, exec (.drw 1 2 1) (oneRow .fault 56 31 0x300 0xFF) = .next t :=
  ⟨not_off_grid _ _ _ _ (by decide) (by decide), _, rfl⟩

theorem witness_ClearedGridNeverCollides :
    ∃ t, exec .cls (oneRow .wrap 63 31 0x300 0xC0) = .next t ∧ t.drawable 1 2 1 :=
  ⟨_, rfl, .inr (by decide), fun h => (by cases h)⟩

theorem witness_DrawingTwiceRestores :
    (1 : RegIx) ≠ vf ∧ (2 : RegIx) ≠ vf ∧ (oneRow .wrap 63 31 0x300 0xC0).drawable 1 2 1 ∧
    ∃ c, (oneRow .wrap 63 31 0x300 0xC0).toggles 1 2 1 c ∧ fbGet (oneRow .wrap 63 31 0x300 0xC0).fb c = false :=
  ⟨by decide, by decide, ⟨.inr (by decide), fun h => (by cases h)⟩, (31, 63),
   witness_DrwFollowsItsRule_cells.1, fbGet_fbClear _⟩

/-! #### The other instructions -/

theorem witness_RetResumesAfterTheCall :
    (blank .wrap).sp.val = 0 ∧ { blank .wrap with sp := 1 }.sp.val = (0 : Fin 16).val + 1 ∧
    { blank .wrap with sp := 16 }.sp.val = (15 : Fin 16).val + 1 := by decide

theorem witness_CallPushesItsOwnAddress :
    { blank .wrap with sp := 16 }.sp.val = 16 ∧ (blank .wrap).sp.val = (0 : Fin 16).val ∧
    { blank .wrap with sp := 15 }.sp.val = (15 : Fin 16).val := by decide

theorem witness_CallThenRetRestoresDepth :
    { blank .wrap with sp := 15 }.sp.val = (15 : Fin 16).val ∧
    ∃ t, exec (.call 0x345) { blank .wrap with sp := 15 } = .next t ∧ t.sp.val = (15 : Fin 16).val + 1 :=
  ⟨by decide, _, rfl, by decide⟩

theorem witness_SkipsOnKey :
    ((regs []).reg 1).toNat = (0 : Fin 16).val ∧ ((regs [(1, 15)]).reg 1).toNat = (15 : Fin 16).val ∧
    15 < ((regs [(1, 16)]).reg 1).toNat := by decide

theorem witness_RndMasksTheRandomByte : (0xF0 : Byte).getLsbD 3 = false ∧ (0x00 : Byte) = 0x00 ∧ (0xFF : Byte) = 0xFF := by
  decide

/-- The flag hypotheses of ADD, SUB and SUBN, on both sides of the test. -/
theorem witness_AddRegFlagThenSum :
    (1 : Byte) = (if ((regs [(1, 200), (2, 56)]).reg 2).toNat > 255 - ((regs [(1, 200), (2, 56)]).reg 1).toNat then 1 else 0) ∧
    (0 : Byte) = (if ((regs [(1, 200), (2, 55)]).reg 2).toNat > 255 - ((regs [(1, 200), (2, 55)]).reg 1).toNat then 1 else 0) ∧
    (1 : RegIx) ≠ vf := by decide
theorem witness_SubRegFlagThenDifference :
    (0 : Byte) = (if ((regs [(1, 200), (2, 56)]).reg 2).toNat > 255 - ((regs [(1, 200), (2, 56)]).reg 1).toNat then 0 else 1) ∧
    (1 : RegIx) ≠ vf := by decide
theorem witness_SubnRegFlagThenDifference :
    (1 : Byte) = (if ((regs [(1, 200), (2, 55)]).reg 2).toNat > 255 - ((regs [(1, 200), (2, 55)]).reg 1).toNat then 0 else 1) ∧
    (1 : RegIx) ≠ vf := by decide
theorem witness_ShrFlagThenHalf : (1 : Byte).toNat = ((regs [(1, 0xFF)]).reg 1).toNat % 2 ∧ (1 : RegIx) ≠ vf := by decide
theorem witness_ShlFlagThenDouble : (7 : Byte).toNat = ((regs [(1, 0xFF)]).reg 1).toNat % 8 ∧ (1 : RegIx) ≠ vf := by decide
theorem witness_AluLawsAwayFromVf : (0 : RegIx) ≠ vf ∧ (14 : RegIx) ≠ vf := by decide

theorem witness_BaselineNoOpsOnlyAdvance :
    Instr.ldB 4 ∈ [.ldVxK 4, .ldF 4, .ldB 4, .ldMemVx 4, .ldVxMem 4] := by decide

/-- A running state with a word at `PC`. -/
def ready (w : Nat) : State := (blank .wrap).withFetchWord 16 w

theorem witness_TimerMovesThroughTheirCycle :
    (blank .wrap).halt.code = .ok ∧ (ready 0xF507).fetch = .ok (encXKK 0xF 5 0x07) ∧
    (ready 0xF515).fetch = .ok (encXKK 0xF 5 0x15) ∧ (ready 0xF518).fetch = .ok (encXKK 0xF 5 0x18) :=
  ⟨rfl, rfl, rfl, rfl⟩

/-! #### The cycle -/

/-- At the last legal `PC`, once with an instruction that completes and once with one that raises. -/
theorem witness_StepRunsTheFetchedInstruction :
    let s := { blank .wrap with pc := 0xFFE }.withFetchWord 16 0x00EE
    s.halt.code = .ok ∧ s.pc.toNat ≤ 4094 ∧ decodeBytes [s.cell s.pc.toNat, s.cell (s.pc.toNat + 1)] = .ok (.ret, []) ∧
    ∃ t, exec .ret { s with ports := { s.ports with
      rnd := Config.randomByte s.ports.draws, draws := s.ports.draws + 1, loadable := false } } = .next t ∧
      t.halt.code = .stackUnderflow :=
  ⟨rfl, by decide, rfl, _, rfl, rfl⟩

theorem witness_FetchReadsTheBigEndianWord :
    { blank .wrap with pc := 0xFFE }.pc.toNat ≤ 4094 ∧ { blank .wrap with pc := 0xFFF }.pc.toNat = 4095 ∧
    4095 < { blank .wrap with pc := 0x1000 }.pc.toNat ∧
    { blank .wrap with pc := 0xFFF }.fetch = .error (0x1000 : Word).toNat ∧
    { blank .wrap with pc := 0xFFFF }.fetch = .error (0xFFFF : Word).toNat ∧ (blank .wrap).halt.code = .ok :=
  ⟨by decide, by decide, by decide, rfl, rfl, rfl⟩

theorem witness_UnrecognizedWordTicksOnly :
    (ready 0xFFFF).halt.code = .ok ∧ (ready 0xFFFF).fetch = .ok 0xFFFF ∧ decode 0xFFFF = none := ⟨rfl, rfl, by decide⟩

/-- A halted state. -/
def dead : State := { ready 0x6F12 with halt := ⟨.stackOverflow, 0x200⟩ }

theorem witness_HaltedCycleDoesNothing :
    dead.halt.code ≠ .ok ∧ (∃ u, hostStep .reset dead = .next u) ∧ ∃ u, hostStep (.cycle 0xAA) dead = .next u :=
  ⟨by decide, ⟨_, rfl⟩, _, rfl⟩

theorem witness_FatalConditionsArePrecise :
    (ready 0x00EE).halt.code = .ok ∧ ∃ t, step (ready 0x00EE) = .next t ∧ t.halt.code ≠ .ok :=
  ⟨rfl, _, rfl, by decide⟩

theorem witness_EveryCycleTicks :
    (∃ t, step (ready 0xF518) = .next t ∧ (ready 0xF518).halt.code = .ok ∧ t.halt.code = .ok) ∧
    ∃ t, step dead = .next t ∧ t.halt.code ≠ .ok :=
  ⟨⟨_, rfl, rfl, by decide⟩, _, rfl, by decide⟩

theorem witness_WritesOnlyWhatItsRowLists :
    (∃ t, step (ready 0x2345) = .next t ∧ t.halt.code = .ok ∧ (ready 0x2345).fetched = some (.call 0x345) ∧
      mayWrite (ready 0x2345).sp.val (.call 0x345) (.stackEntry 1) = false) ∧
    (∃ t, step (ready 0xFFFF) = .next t ∧ t.halt.code = .ok ∧ (ready 0xFFFF).fetched = none) ∧
    ∃ t, step (ready 0x00EE) = .next t ∧ t.halt.code ≠ .ok :=
  ⟨⟨_, rfl, by decide, rfl, by decide⟩, ⟨_, rfl, by decide, rfl⟩, _, rfl, by decide⟩

theorem witness_MemoryAndKeysAreReadOnly : ∃ t, step (ready 0xFF55) = .next t := ⟨_, rfl⟩

theorem witness_RandomByteMattersOnlyForRnd : ∀ x kk, (ready 0xD011).fetched ≠ some (.rnd x kk) := by
  intro x kk h; cases h

/-! #### The invariant and the host -/

/-- A `CALL` at the last legal `PC`: a state with the invariant, memory and stack in use. -/
def deep : State :=
  { ({ blank .wrap with pc := 0xFFE }.withFetchWord 16 0x2345) with sp := 1, stack := Vector.replicate 16 0x0FFE }

theorem deep_inv : deep.Inv where
  memForm := by decide
  memAbove := by decide
  stackHeld := by decide
  haltCode := .inl rfl
  pcBound := by decide

theorem witness_StepKeepsTheInvariant : deep.Inv ∧ ∃ t, step deep = .next t ∧ t.sp = 2 := ⟨deep_inv, _, rfl, by decide⟩

theorem witness_HostMovesKeepTheInvariant :
    deep.Inv ∧ (∃ t, hostStep (.loadImage [0x12, 0x00]) deep = .next t) ∧ ∃ t, hostStep (.cycle 0) deep = .next t :=
  ⟨deep_inv, ⟨_, rfl⟩, _, rfl⟩

/-- A reachable state that holds a return address. -/
theorem witness_ReachableStatesKeepFontAndBounds : ∃ s, Reachable s ∧ (0 : Fin 16).val < s.sp.val :=
  ⟨_, .move (.cycle 0x00) (.move (.loadImage [0x22, 0x04]) .start rfl) rfl, by decide⟩

theorem witness_LoadImageCopiesVerbatim :
    State.reset.ports.loadable = true ∧ (List.replicate 3584 (0xAA : Byte)).length ≤ 3584 ∧
    3584 < (List.replicate 3585 (0xAA : Byte)).length ∧ 3583 < (List.replicate 3584 (0xAA : Byte)).length := by
  simp only [List.length_replicate]; decide

theorem witness_ImageWindowOpensAtReset :
    { State.reset with ports := { State.reset.ports with loadable := false } }.ports.loadable = false ∧
    (∃ t, hostStep (.loadImage []) State.reset = .next t) ∧ ∃ t, hostStep (.setKey 15 true) State.reset = .next t :=
  ⟨rfl, ⟨_, rfl⟩, _, rfl⟩

theorem witness_BootStartsAtTheImage : ([] : List Byte).length ≤ 3584 ∧ (List.replicate 3584 (0xAA : Byte)).length ≤ 3584 := by
  simp only [List.length_replicate]; decide

theorem witness_SetKeySetsOneFlag : (0 : Fin 16) ≠ 15 := by decide

theorem witness_FinishedProgramOnlyRunsItsTimersDown : (ready 0x1200).finished = true ∧ (ready 0x1202).finished = false :=
  ⟨by decide, by decide⟩

end Sys2Proof.Tests
end

section
/-! PROOFS. The reset values of the state (R35), and the invariant of every run (R37) with what it says of reachable states. -/

namespace Sys2Proof.Machine

/-! ### Reset (R35) -/

/-- A state whose memory lists nothing reads as the reset contents. -/
theorem State.cell_of_mem_nil {s : State} (h : s.mem = []) (a : Nat) : s.cell a = background s.params.font a := by
  rw [State.cell, h, readCell]

theorem background_font (font : Vector Byte 80) (a : Fin 80) : background font a.val = font[a] := dif_pos a.isLt

theorem background_above {font : Vector Byte 80} {a : Nat} (h : 80 ≤ a) : background font a = 0 :=
  dif_neg (Nat.not_lt.2 h)

/-- Settles O51: the registers, the stack, the framebuffer and the keys are replicated zeros, memory is the empty list. -/
theorem resetRestoresEveryElement : Obligations.ResetRestoresEveryElement := by
  intro s
  have hmem : (hostReset s).mem = [] := rfl
  refine ⟨hostReset s, rfl, fun x => ?_, rfl, rfl, fun k => ?_, rfl, rfl, rfl, fbGet_fbClear, rfl, fun k => ?_,
    fun a => ?_, fun a ha _ => ?_, rfl⟩
  · exact Vector.getElem_replicate x.isLt
  · exact Vector.getElem_replicate k.isLt
  · exact Vector.getElem_replicate k.isLt
  · rw [State.cell_of_mem_nil hmem]; exact background_font s.params.font a
  · rw [State.cell_of_mem_nil hmem, background_above ha]

/-! ### The invariant after reset, and under the updates of a cycle (R37) -/

theorem hostReset_inv (s : State) : (hostReset s).Inv where
  memForm := memWf_nil
  memAbove := nofun
  stackHeld := nofun
  haltCode := .inl rfl
  pcBound := (by decide : 0x200 ≤ 0x10FE)

/-- Settles O47: the list of memory is empty and no return address is held. -/
theorem resetMeetsTheInvariant : Obligations.ResetMeetsTheInvariant :=
  ⟨hostReset_inv State.reset, hostReset_inv⟩

namespace State.Inv

variable {s : State}

/-- The invariant speaks of memory, the parameters, the call stack, `HALT` and `PC` alone. -/
theorem congr {t : State} (h : s.Inv) (hmem : t.mem = s.mem) (hparams : t.params = s.params) (hstack : t.stack = s.stack)
    (hsp : t.sp = s.sp) (hhalt : t.halt = s.halt) (hpc : t.pc = s.pc) : t.Inv where
  memForm := hmem ▸ hparams ▸ h.memForm
  memAbove := hmem ▸ h.memAbove
  stackHeld := hstack ▸ hsp ▸ h.stackHeld
  haltCode := hhalt ▸ h.haltCode
  pcBound := hpc ▸ h.pcBound

theorem invoke (h : s.Inv) (rnd : Byte) : (s.invoke rnd).Inv := h.congr rfl rfl rfl rfl rfl rfl

theorem report (h : s.Inv) (status : Status) (tone : Bool) : (s.report status tone).Inv := h.congr rfl rfl rfl rfl rfl rfl

theorem tick (h : s.Inv) : s.tick.Inv := h.congr rfl rfl rfl rfl rfl rfl

theorem close (h : s.Inv) (status : Status) : (s.close status).Inv := by
  rcases s.close_eq status with e | e <;> rw [e]
  · exact h.report _ _
  · exact h.tick.report _ _

/-- A fatal condition changes nothing but `HALT`, and its code is a fatal one. -/
theorem raise (h : s.Inv) {c : Code} (hc : c.fatal = true) (info : Word) : (s.raise c info).Inv :=
  ⟨h.memForm, h.memAbove, h.stackHeld, .inr hc, h.pcBound⟩

end State.Inv

/-! ### One instruction, one cycle, one host operation -/

/-- Where the instruction was fetched, `PC` is at most 4094, so an address it pushes is too. -/
theorem StackMove.keeps_held {s t : State} (hmove : StackMove s t) (hpc : s.pc.toNat ≤ 4094)
    (held : ∀ k : Fin 16, k.val < s.sp.val → (s.stack[k]).toNat ≤ 4094) (k : Fin 16) (hk : k.val < t.sp.val) :
    (t.stack[k]).toNat ≤ 4094 := by
  rcases hmove with ⟨hstack, hsp⟩ | ⟨hstack, hsp⟩ | ⟨hlt, hstack, hsp⟩
  · rw [hstack]; exact held k (hsp ▸ hk)
  · rw [hstack]; exact held k (by omega)
  · simp only [hstack, Fin.getElem_fin, Vector.getElem_set]
    split
    · exact hpc
    · exact held k (by omega)

/-- From a `PC` a fetch succeeds at, no computation of the next `PC` wraps (R24). -/
theorem PcMove.keeps_bound {s t : State} (hmove : PcMove s t) (hpc : s.pc.toNat ≤ 4094)
    (held : ∀ k : Fin 16, k.val < s.sp.val → (s.stack[k]).toNat ≤ 4094) : t.pc.toNat ≤ 0x10FE := by
  rcases hmove with h | h | h | ⟨k, hk, h⟩
  · rw [h]; bv_omega
  · rw [h]; bv_omega
  · exact h
  · have hk := held k hk
    rw [h]; bv_omega

theorem exec_keeps_inv {i : Instr} {s t : State} (hs : s.Inv) (hpc : s.pc.toNat ≤ 4094) (h : exec i s = .next t) :
    t.Inv := by
  rcases exec_cases h with ⟨c, info, hc, rfl⟩ | hq
  · exact hs.raise hc info
  · exact {
      memForm := by rw [hq.mem, hq.params]; exact hs.memForm
      memAbove := by rw [hq.mem]; exact hs.memAbove
      stackHeld := hq.stackMove.keeps_held hpc hs.stackHeld
      haltCode := by rw [hq.halt]; exact hs.haltCode
      pcBound := hq.pcMove.keeps_bound hpc hs.stackHeld }

/-- A cycle keeps the invariant, whatever random byte it is given. -/
theorem cycle_keeps_inv {rnd : Byte} {s t : State} (hs : s.Inv) (h : cycle rnd s = .next t) : t.Inv := by
  rcases cycle_cases h with ⟨-, rfl⟩ | ⟨-, a, -, rfl⟩ | ⟨-, w, -, -, rfl⟩ | ⟨-, w, i, u, hf, -, he, rfl⟩
  · exact (hs.invoke rnd).report _ _
  · exact ((hs.invoke rnd).raise rfl _).report _ _
  · exact (hs.invoke rnd).tick.report _ _
  · exact (exec_keeps_inv (hs.invoke rnd) (State.fetch_ok_pc hf) he).close _

/-- Settles O48: a step is a cycle with the free byte of its turn. -/
theorem stepKeepsTheInvariant : Obligations.StepKeepsTheInvariant :=
  fun _ _ hs h => cycle_keeps_inv hs h

/-- What the image load does in its window: the image is copied, or it is too long and `HALT` latches (R148, R160). -/
theorem loadImage_cases {bytes : List Byte} {s t : State} (h : loadImage bytes s = .next t) :
    (bytes.length ≤ Config.imageMax ∧
      t = { s.memWrites Config.progBase bytes with ports := { s.ports with status := ⟨.ok, 0⟩, loadable := false } }) ∨
    (Config.imageMax < bytes.length ∧
      t = { s.raise .imageTooLarge 0 with ports := { s.ports with status := ⟨.imageTooLarge, 0⟩, loadable := false } }) := by
  unfold loadImage at h
  split at h
  · injection h with h
    subst h
    split
    · next hle => exact .inl ⟨hle, rfl⟩
    · next hgt => exact .inr ⟨Nat.lt_of_not_le hgt, rfl⟩
  · cases h

/-- An image that fits lies within 0x200 to 4095, so memory keeps its form and nothing below 0x200 is listed. -/
theorem State.Inv.memWrites_image {s : State} (hs : s.Inv) {bytes : List Byte} (hle : bytes.length ≤ Config.imageMax) :
    (s.memWrites Config.progBase bytes).Inv where
  memForm :=
    have hfits : Config.progBase + bytes.length ≤ Config.memSize := Nat.add_le_add_left hle Config.progBase
    writeCells_keep_memWf bytes hfits hs.memForm
  memAbove := fun c hc => (mem_writeCells bytes hc).elim id (hs.memAbove c)
  stackHeld := hs.stackHeld
  haltCode := hs.haltCode
  pcBound := hs.pcBound

theorem loadImage_keeps_inv {bytes : List Byte} {s t : State} (hs : s.Inv) (h : loadImage bytes s = .next t) : t.Inv := by
  rcases loadImage_cases h with ⟨hle, rfl⟩ | ⟨-, rfl⟩
  · exact (hs.memWrites_image hle).congr rfl rfl rfl rfl rfl rfl
  · exact (hs.raise (c := .imageTooLarge) rfl 0).congr rfl rfl rfl rfl rfl rfl

/-- Every move of the host keeps the invariant (R165). -/
theorem hostStep_keeps_inv {op : HostOp} {s t : State} (hs : s.Inv) (h : hostStep op s = .next t) : t.Inv := by
  cases op with
  | reset => cases h; exact hostReset_inv s
  | loadImage bytes => exact loadImage_keeps_inv hs h
  | cycle rnd => exact cycle_keeps_inv hs h
  | setKey k pressed => cases h; exact hs.congr rfl rfl rfl rfl rfl rfl
  | snapshot => cases h; exact hs
  | isDirty => cases h; exact hs
  | clearDirty => cases h; exact hs.congr rfl rfl rfl rfl rfl rfl

/-! ### Reachable states (R24, R37, R41) -/

/-- Memory, the keys and the parameters are read-only to an instruction (R31, R45). -/
theorem exec_readOnly {i : Instr} {s t : State} (h : exec i s = .next t) :
    t.mem = s.mem ∧ t.key = s.key ∧ t.params = s.params := by
  rcases exec_cases h with ⟨c, info, -, rfl⟩ | hq
  · exact ⟨rfl, rfl, rfl⟩
  · exact ⟨hq.mem, hq.key, hq.params⟩

/-- Memory, the keys and the parameters are read-only to a cycle (R31, R45). -/
theorem cycle_readOnly {rnd : Byte} {s t : State} (h : cycle rnd s = .next t) :
    t.mem = s.mem ∧ t.key = s.key ∧ t.params = s.params := by
  rcases cycle_cases h with ⟨-, rfl⟩ | ⟨-, a, -, rfl⟩ | ⟨-, w, -, -, rfl⟩ | ⟨-, w, i, u, -, -, he, rfl⟩
  · exact ⟨rfl, rfl, rfl⟩
  · exact ⟨rfl, rfl, rfl⟩
  · exact ⟨rfl, rfl, rfl⟩
  · have hu := exec_readOnly he
    rcases u.close_eq ⟨.ok, 0⟩ with e | e <;> rw [e] <;> exact hu

theorem hostStep_params {op : HostOp} {s t : State} (h : hostStep op s = .next t) : t.params = s.params := by
  cases op with
  | loadImage bytes => rcases loadImage_cases h with ⟨-, rfl⟩ | ⟨-, rfl⟩ <;> rfl
  | cycle rnd => exact (cycle_readOnly h).2.2
  | reset | setKey | snapshot | isDirty | clearDirty => cases h; rfl

theorem Reachable.inv {s : State} (h : Reachable s) : s.Inv := by
  induction h with
  | start => exact hostReset_inv State.reset
  | move op _ hstep ih => exact hostStep_keeps_inv ih hstep

theorem Reachable.params {s : State} (h : Reachable s) : s.params = State.reset.params := by
  induction h with
  | start => rfl
  | move op _ hstep ih => exact (hostStep_params hstep).trans ih

theorem readCell_of_unlisted {font : Vector Byte 80} {m : Memory} {a : Nat} (h : ∀ c ∈ m, c.1 ≠ a) :
    readCell font m a = background font a := by
  induction m with
  | nil => rfl
  | cons c rest ih =>
    obtain ⟨hc, hrest⟩ := List.forall_mem_cons.1 h
    rw [readCell, if_neg hc.symm, ih hrest]

/-- Below 0x200 memory reads as after reset (R37, R41). -/
theorem State.Inv.cell_below {s : State} (hs : s.Inv) {a : Nat} (ha : a < Config.progBase) :
    s.cell a = background s.params.font a :=
  readCell_of_unlisted fun c hc => Nat.ne_of_gt (Nat.lt_of_lt_of_le ha (hs.memAbove c hc))

theorem State.Inv.halt_ne_unknownOpcode {s : State} (hs : s.Inv) : s.halt.code ≠ .unknownOpcode := by
  intro e
  rcases hs.haltCode with h | h <;> rw [e] at h <;> cases h

/-- Settles O50: the invariant and the parameters stand in every reachable state, by induction on the host's moves. -/
theorem reachableStatesKeepFontAndBounds : Obligations.ReachableStatesKeepFontAndBounds := by
  intro s hr
  have hs := hr.inv
  refine ⟨Nat.le_of_lt_succ s.sp.isLt, hs.stackHeld, hs.pcBound, hr.params, fun a => ?_, fun a h50 h200 => ?_,
    hs.halt_ne_unknownOpcode⟩
  · rw [hs.cell_below (a.isLt.trans (by decide)), background_font]
  · rw [hs.cell_below h200, background_above h50]

end Sys2Proof.Machine
end

section
/-! PROOFS. The side-effect table (R36): what each instruction leaves unchanged, and what the end of a cycle adds to it. -/

namespace Sys2Proof.Machine

/-! ### Elements that keep their value -/

theorem Element.same_trans {e : Element} {s t u : State} (h : e.same s t) (h' : e.same t u) : e.same s u := by
  cases e with
  | memory => exact fun a => (h' a).trans (h a)
  | _ => exact Eq.trans h' h

/-- `PC`, `HALT` and the ports are no elements: whatever is written to them, every element stays. -/
theorem Element.same_outside (e : Element) (s : State) (pc : Word) (halt : Status) (ports : Ports) :
    e.same s { s with pc := pc, halt := halt, ports := ports } := by
  cases e with
  | memory => exact fun _ => rfl
  | _ => rfl

theorem Element.same_setReg {e : Element} {x : RegIx} (h : e ≠ .reg x) (s : State) (b : Byte) :
    e.same s (s.setReg x b) := by
  cases e with
  | reg k => exact s.reg_setReg_other b fun hk => h (hk ▸ rfl)
  | memory => exact fun _ => rfl
  | _ => rfl

theorem Element.same_setI {e : Element} (h : e ≠ .index) (s : State) (w : Word) : e.same s (s.setI w) := by
  cases e with
  | index => exact absurd rfl h
  | memory => exact fun _ => rfl
  | _ => rfl

/-- A write of both timers leaves every other element, and a timer that is given the value it had. -/
theorem Element.same_timers {e : Element} {s : State} {dt st : Byte} (hd : e = .delay → dt = s.dt)
    (hs : e = .sound → st = s.st) : e.same s { s with dt := dt, st := st } := by
  cases e with
  | delay => exact hd rfl
  | sound => exact hs rfl
  | memory => exact fun _ => rfl
  | _ => rfl

theorem Element.same_display {e : Element} (hf : e ≠ .framebuffer) (hd : e ≠ .dirtyFlag) (s : State) (fb : Framebuffer)
    (dirty : Bool) : e.same s { s with fb := fb, dirty := dirty } := by
  cases e with
  | framebuffer => exact absurd rfl hf
  | dirtyFlag => exact absurd rfl hd
  | memory => exact fun _ => rfl
  | _ => rfl

theorem Element.same_advance {e : Element} {s t : State} (h : e.same s t) : e.same s t.advance :=
  e.same_trans h (e.same_outside t _ t.halt t.ports)

/-! ### What each instruction leaves unchanged -/

/-- An instruction that writes one register and advances. -/
theorem Element.same_setReg_advance {e : Element} {x : RegIx} (h : (e == .reg x) = false) (s : State) (b : Byte) :
    e.same s (s.setReg x b).advance :=
  e.same_advance (e.same_setReg (beq_eq_false_iff_ne.1 h) s b)

/-- An instruction of family 8 that writes a flag writes `VF` and its register (R117). -/
theorem Element.same_flagThenResult {e : Element} {x : RegIx} (h : (e == .reg vf || e == .reg x) = false) (s : State)
    (flag : Byte) (result : State → Byte) : e.same s (s.flagThenResult flag x result) := by
  obtain ⟨hvf, hx⟩ := Bool.or_eq_false_iff.1 h
  exact e.same_trans (e.same_setReg (beq_eq_false_iff_ne.1 hvf) s flag) (e.same_setReg_advance hx _ _)

theorem Element.same_push {e : Element} {s t : State} {addr : Word} {nnn : Imm12} (hp : s.push addr = some t)
    (h : mayWrite s.sp.val (.call nnn) e = false) : e.same s t := by
  obtain ⟨hs, rfl⟩ := State.push_cases hp
  cases e with
  | stackEntry k =>
    have hk : k.val ≠ s.sp.val := beq_eq_false_iff_ne.1 h
    exact Vector.getElem_set_ne hs k.isLt hk.symm
  | depth => cases h
  | memory => exact fun _ => rfl
  | _ => rfl

theorem Element.same_pop {e : Element} {s t : State} {addr : Word} (hp : s.pop = some (addr, t)) (h : e ≠ .depth) :
    e.same s t := by
  obtain ⟨k, -, -, rfl⟩ := State.pop_cases hp
  cases e with
  | depth => exact absurd rfl h
  | memory => exact fun _ => rfl
  | _ => rfl

theorem Element.same_skipOnKey (e : Element) (s : State) (x : RegIx) (down : Bool) : e.same s (s.skipOnKey x down) := by
  unfold State.skipOnKey
  split
  · exact e.same_outside s s.pc _ s.ports
  · exact e.same_outside s _ s.halt s.ports

theorem Element.same_drawPixels {e : Element} (h : (e == .reg vf || e == .framebuffer || e == .dirtyFlag) = false)
    (s : State) (pixels : List (Nat × Nat)) : e.same s (s.drawPixels pixels) := by
  simp only [Bool.or_eq_false_iff, beq_eq_false_iff_ne] at h
  obtain ⟨⟨hvf, hfb⟩, hdirty⟩ := h
  exact e.same_advance (e.same_trans (e.same_setReg hvf s _) (e.same_display hfb hdirty _ _ _))

/-- R36 for the execute phase: an element outside the instruction's row keeps its value, also where a condition is raised. -/
theorem exec_writes_only_row {i : Instr} {s t : State} (h : exec i s = .next t) {e : Element}
    (he : mayWrite s.sp.val i e = false) : e.same s t := by
  cases i with
  | jp | jpV0 | seImm | sneImm | seReg | sneReg | ldVxK | ldF | ldB | ldMemVx | ldVxMem =>
    cases h
    exact e.same_outside s _ s.halt s.ports
  | ldImm | addImm | ldReg | orReg | andReg | xorReg | rnd | ldVxDt =>
    cases h
    exact e.same_setReg_advance he s _
  | addReg | subReg | shr | subnReg | shl =>
    cases h
    exact e.same_flagThenResult he s _ _
  | ldI | addI =>
    cases h
    exact e.same_advance (e.same_setI (beq_eq_false_iff_ne.1 he) s _)
  | skp | sknp =>
    cases h
    exact e.same_skipOnKey s _ _
  | ldDtVx =>
    cases h
    exact e.same_advance (e.same_timers (fun hd => absurd hd (beq_eq_false_iff_ne.1 he)) fun _ => rfl)
  | ldStVx =>
    cases h
    exact e.same_advance (e.same_timers (fun _ => rfl) fun hs => absurd hs (beq_eq_false_iff_ne.1 he))
  | cls =>
    cases h
    obtain ⟨hfb, hdirty⟩ := Bool.or_eq_false_iff.1 he
    exact e.same_advance (e.same_display (beq_eq_false_iff_ne.1 hfb) (beq_eq_false_iff_ne.1 hdirty) s _ _)
  | ret =>
    injection h with h
    subst h
    split
    · exact e.same_outside s s.pc _ s.ports
    · next addr u hp =>
      exact e.same_trans (e.same_pop hp (beq_eq_false_iff_ne.1 he)) (e.same_outside u _ u.halt u.ports)
  | call nnn =>
    injection h with h
    subst h
    split
    · exact e.same_outside s s.pc _ s.ports
    · next u hp => exact e.same_trans (e.same_push hp he) (e.same_outside u _ u.halt u.ports)
  | drw x y n =>
    injection h with h
    subst h
    split
    · exact e.same_outside s s.pc _ s.ports
    · split
      · exact e.same_outside s s.pc _ s.ports
      · exact e.same_drawPixels he s _

/-! ### What a cycle of a running machine adds -/

theorem Code.ne_ok_of_fatal {c : Code} (h : c.fatal = true) : c ≠ .ok := by
  rintro rfl; cases h

theorem State.halted_eq_false {s : State} : s.halted = false ↔ s.halt.code = .ok := by simp [State.halted]

theorem State.close_of_running {s : State} (h : s.halt.code = .ok) (status : Status) :
    s.close status = s.tick.report status s.toneDue :=
  if_neg (by simp [State.halted, h])

/-- A fatal condition ends the cycle without a tick (R91). -/
theorem State.close_raise (s : State) {c : Code} (hc : c.fatal = true) (info : Word) (status : Status) :
    (s.raise c info).close status = (s.raise c info).report ⟨c, info⟩ false :=
  if_pos (by simpa [State.halted] using Code.ne_ok_of_fatal hc)

/-- The three ends of a running machine's cycle: a fatal condition from the fetch or the instruction (R91), an unrecognized
word (R85), a completed instruction (R86). -/
inductive RunningCycleCase (rnd : Byte) (s t : State) : Prop where
  | raised (c : Code) (info : Word) (hc : c.fatal = true)
      (ht : t = ((s.invoke rnd).raise c info).report ⟨c, info⟩ false)
  | unrecognized (w : Word) (hf : s.fetched = none) (ht : t = (s.invoke rnd).tick.report ⟨.unknownOpcode, w⟩ s.toneDue)
  | completed (i : Instr) (u : State) (hf : s.fetched = some i) (he : exec i (s.invoke rnd) = .next u)
      (hq : RunsQuietly (s.invoke rnd) u) (ht : t = u.tick.report ⟨.ok, 0⟩ u.toneDue)

theorem cycle_cases_of_running {rnd : Byte} {s t : State} (hs : s.halt.code = .ok) (h : cycle rnd s = .next t) :
    RunningCycleCase rnd s t := by
  rcases cycle_cases h with ⟨hh, -⟩ | ⟨-, a, -, rfl⟩ | ⟨-, w, hf, hd, rfl⟩ | ⟨-, w, i, u, hf, hd, he, rfl⟩
  · rw [State.halted_eq_false.2 hs] at hh; cases hh
  · exact .raised _ _ rfl rfl
  · exact .unrecognized w (by rw [State.fetched, hf]; exact hd) rfl
  · rcases exec_cases he with ⟨c, info, hc, rfl⟩ | hq
    · exact .raised c info hc (State.close_raise _ hc info _)
    · have hu : u.halt.code = .ok := by rw [hq.halt]; exact hs
      exact .completed i u (by rw [State.fetched, hf]; exact hd) he hq (State.close_of_running hu _)

/-- The tick and the outputs leave every element but the timers alone (R87). -/
theorem Element.same_tick_report {e : Element} (hd : e ≠ .delay) (hs : e ≠ .sound) (s : State) (status : Status)
    (tone : Bool) : e.same s (s.tick.report status tone) :=
  e.same_trans (e.same_timers (fun h => absurd h hd) fun h => absurd h hs)
    (e.same_outside s.tick s.tick.pc s.tick.halt _)

/-- Settles O42, by the three ends of a running machine's cycle. -/
theorem writesOnlyWhatItsRowLists : Obligations.WritesOnlyWhatItsRowLists := by
  intro s t hs h
  have invoked (e : Element) : e.same s (s.invoke (Config.randomByte s.ports.draws)) := e.same_outside s s.pc s.halt _
  cases cycle_cases_of_running hs h with
  | raised c info hc ht =>
    subst ht
    exact ⟨fun _ => ⟨fun e => e.same_outside s s.pc _ _, rfl⟩, fun hok => absurd hok (Code.ne_ok_of_fatal hc)⟩
  | unrecognized w hf ht =>
    subst ht
    refine ⟨fun hbad => absurd hs hbad, fun _ => ⟨rfl, fun i hi => ?_, fun _ => ⟨rfl, fun e hd hst => ?_⟩⟩⟩
    · rw [hf] at hi; cases hi
    · exact e.same_trans (invoked e) (e.same_tick_report hd hst _ _ _)
  | completed i u hf he hq ht =>
    subst ht
    have hhalt : u.halt = s.halt := hq.halt
    refine ⟨fun hbad => absurd (hhalt ▸ hs) hbad, fun _ => ⟨hhalt, fun j hj e hrow hd hst => ?_, fun hnone => ?_⟩⟩
    · obtain rfl : i = j := Option.some.inj (hf.symm.trans hj)
      exact e.same_trans (invoked e) (e.same_trans (exec_writes_only_row he hrow) (e.same_tick_report hd hst u _ _))
    · rw [hf] at hnone; cases hnone

end Sys2Proof.Machine
end

section
/-! PROOFS. The status and the tone are never read (R34): `State.report`, which overwrites both, can be moved past every
operation of a cycle up to the report that ends it. -/

namespace Sys2Proof.Machine

variable (s : State) (status : Status) (tone : Bool)

theorem State.push_report (addr : Word) :
    (s.report status tone).push addr = (s.push addr).map fun t => t.report status tone := by
  unfold State.push
  split
  · next h => rw [dif_pos (show s.sp.val < Config.stackDepth from h)]; rfl
  · next h => rw [dif_neg (show ¬ s.sp.val < Config.stackDepth from h)]; rfl

theorem State.pop_report :
    (s.report status tone).pop = s.pop.map fun p => (p.1, p.2.report status tone) := by
  unfold State.pop
  split
  · next h => rw [if_pos (show s.sp.val = 0 from h)]; rfl
  · next h => rw [if_neg (show ¬ s.sp.val = 0 from h)]; rfl

theorem State.memReads_report (a n : Nat) : (s.report status tone).memReads a n = s.memReads a n := by
  induction n generalizing a with
  | zero => rfl
  | succ n ih => rw [State.memReads, State.memReads, ih]; rfl

theorem State.skipOnKey_report (x : RegIx) (down : Bool) :
    (s.report status tone).skipOnKey x down = (s.skipOnKey x down).report status tone := by
  have hkey : (s.report status tone).keyOf x = s.keyOf x := rfl
  unfold State.skipOnKey
  rw [hkey]
  cases s.keyOf x <;> rfl

/-- An instruction runs alike whatever the last outputs were, and leaves them. -/
theorem exec_report {i : Instr} {t : State} (h : exec i s = .next t) :
    exec i (s.report status tone) = .next (t.report status tone) := by
  cases i with
  | ret =>
    cases h
    simp only [exec, execRet, State.pop_report]
    cases s.pop <;> rfl
  | call nnn =>
    cases h
    have hpush := s.push_report status tone s.pc
    simp only [exec, execCall, State.report_pc, hpush]
    cases s.push s.pc <;> rfl
  | skp x | sknp x =>
    cases h
    exact congrArg _ (s.skipOnKey_report status tone x _)
  | drw x y n =>
    cases h
    have hrows : (s.report status tone).spriteRows n = s.spriteRows n := s.memReads_report status tone _ _
    simp only [exec, execDrw, hrows]
    cases s.spriteRows n with
    | error a => rfl
    | ok rows =>
      have hpixels : (s.report status tone).spriteAt x y rows = s.spriteAt x y rows := rfl
      simp only [hpixels, State.report_params]
      split <;> rfl
  | _ => cases h; rfl

/-- The end of a cycle overwrites both outputs. -/
theorem State.close_report (ended : Status) : (s.report status tone).close ended = s.close ended := rfl

theorem State.runWord_report (w : Word) : (s.report status tone).runWord w = s.runWord w := by
  unfold State.runWord
  cases decode w with
  | none => rfl
  | some i =>
    obtain ⟨t, ht⟩ := exec_next i s
    simp only [ht, exec_report s status tone ht, State.close_report]

/-- A cycle gives the same result whatever the last outputs were (R34). -/
theorem cycle_report (rnd : Byte) : cycle rnd (s.report status tone) = cycle rnd s := by
  have hfetch : (s.report status tone).fetch = s.fetch := rfl
  unfold cycle
  rw [hfetch]
  refine if_congr Iff.rfl rfl ?_
  cases s.fetch with
  | error a => rfl
  | ok w => exact (s.invoke rnd).runWord_report status tone w

/-- Settles O44: changing the two outputs is a report, and a step's byte depends on the count of draws alone. -/
theorem outputsAreNeverRead : Obligations.OutputsAreNeverRead :=
  fun s status tone => cycle_report s status tone (Config.randomByte s.ports.draws)

end Sys2Proof.Machine
end

section
/-! PROOFS. Memory, the keypad and the parameters are constant over every step (R11, R31, R45). -/

namespace Sys2Proof.Machine

/-- Settles O43: a step is a cycle with the free byte of its turn, and a cycle is read-only in all four of its ends. -/
theorem memoryAndKeysAreReadOnly : Obligations.MemoryAndKeysAreReadOnly :=
  fun _ _ h => cycle_readOnly h

end Sys2Proof.Machine
end

section
/-! PROOFS. The decoder and the encoder are inverse to each other (R60 to R62, R66, R67), and what follows from it: the rows
of the opcode map select exactly their instructions (R66), and the secondary decode of each family is R65's table. -/

namespace Sys2Proof

open Laws

/-! ### Decoding an encoded word -/

/-- Every instruction is read back from its own word: the family is the `op` the encoder put in, the selector is its low
nibble or low byte, and the operands are the fields it was made of. -/
@[simp] theorem decode_encode (i : Instr) : decode (encode i) = some i := by
  cases i with
  | cls | ret => rfl
  | jp _ | call _ | ldI _ | jpV0 _ => simp [encode, decode]
  | seImm _ _ | sneImm _ _ | ldImm _ _ | addImm _ _ | rnd _ _ => simp [encode, decode]
  | seReg _ _ | sneReg _ _ => simp [encode, decode, decodeNibble0]
  | ldReg _ _ | orReg _ _ | andReg _ _ | xorReg _ _ | addReg _ _ | subReg _ _ | shr _ _ | subnReg _ _ | shl _ _ =>
    simp [encode, decode, decodeFamily8]
  | drw _ _ _ => simp [encode, decode]
  | skp _ | sknp _ => simp [encode, decode, decodeFamilyE]
  | ldVxDt _ | ldVxK _ | ldDtVx _ | ldStVx _ | addI _ | ldF _ | ldB _ | ldMemVx _ | ldVxMem _ =>
    simp [encode, decode, decodeFamilyF]

/-- Two bytes whose word is recognized give its instruction and leave the bytes after them. -/
theorem decodeBytes_of_decode {hi lo : Byte} {i : Instr} (rest : List Byte) (h : decode (wordOfBytes hi lo) = some i) :
    decodeBytes (hi :: lo :: rest) = .ok (i, rest) := by
  rw [decodeBytes, h]

theorem decodeBytes_encodeBytes (i : Instr) (rest : List Byte) : decodeBytes (encodeBytes i ++ rest) = .ok (i, rest) :=
  decodeBytes_of_decode rest (by rw [wordOfBytes_bytes, decode_encode])

/-- Settles O1: `decode_encode` on words, and on bytes the two bytes of a word give it back. -/
theorem everyInstructionDecodesFromItsWord : Obligations.EveryInstructionDecodesFromItsWord :=
  fun i => ⟨decode_encode i, decodeBytes_encodeBytes i⟩

/-! ### A word from what selects it and its operand fields -/

section Fields

variable {w : Word} {op n : BitVec 4} {kk : Byte}

theorem encNNN_of_opField (hop : opField w = op) : encNNN op (nnnField w) = w :=
  hop ▸ encNNN_fields w

theorem encXKK_of_opField (hop : opField w = op) : encXKK op (xField w) (kkField w) = w :=
  hop ▸ encXKK_fields w

theorem encXKK_of_kkField (hop : opField w = op) (hkk : kkField w = kk) : encXKK op (xField w) kk = w :=
  hkk ▸ encXKK_of_opField hop

theorem encXYN_of_opField (hop : opField w = op) : encXYN op (xField w) (yField w) (nField w) = w :=
  hop ▸ encXYN_fields w

theorem encXYN_of_nField (hop : opField w = op) (hn : nField w = n) : encXYN op (xField w) (yField w) n = w :=
  hn ▸ encXYN_of_opField hop

end Fields

/-! ### Encoding a decoded word -/

/-- An answer of the decoder that loses no bit of `w`: if it is an instruction, `w` is the word of it. -/
def Reencodes (w : Word) (answer : Option Instr) : Prop := ∀ i, answer = some i → encode i = w

section Reencode

variable {w : Word}

theorem Reencodes.some {i : Instr} (h : encode i = w) : Reencodes w (some i) := fun _ hi => Option.some.inj hi ▸ h

/-- A test of the decoder may be used in the branch it selects. -/
theorem Reencodes.ite {c : Prop} [Decidable c] {a b : Option Instr} (ha : c → Reencodes w a) (hb : ¬c → Reencodes w b) :
    Reencodes w (if c then a else b) :=
  iteInduction ha hb

theorem reencodes_decodeFamily0 : Reencodes w (decodeFamily0 w) :=
  .ite (fun h => .some h.symm) fun _ => .ite (fun h => .some h.symm) fun _ => nofun

theorem reencodes_decodeNibble0 {i : Instr} (hi : nField w = 0x0#4 → encode i = w) : Reencodes w (decodeNibble0 w i) :=
  .ite (fun h => .some (hi h)) fun _ => nofun

/-- In family 8 the branch taken names the low nibble, and the term holds the other two fields. -/
theorem reencodes_decodeFamily8 (hop : opField w = 0x8#4) : Reencodes w (decodeFamily8 w) := by
  unfold decodeFamily8
  repeat refine .ite (fun h => .some (encXYN_of_nField hop h)) fun _ => ?_
  nofun

/-- In family E the branch taken names the low byte, and the term holds `x`. -/
theorem reencodes_decodeFamilyE (hop : opField w = 0xE#4) : Reencodes w (decodeFamilyE w) := by
  unfold decodeFamilyE
  repeat refine .ite (fun h => .some (encXKK_of_kkField hop h)) fun _ => ?_
  nofun

/-- In family F the branch taken names the low byte, and the term holds `x`. -/
theorem reencodes_decodeFamilyF (hop : opField w = 0xF#4) : Reencodes w (decodeFamilyF w) := by
  unfold decodeFamilyF
  repeat refine .ite (fun h => .some (encXKK_of_kkField hop h)) fun _ => ?_
  nofun

/-- The test of the family names `op`, and the operands and the selector of the family are the rest of the word. -/
theorem reencodes_decode (w : Word) : Reencodes w (decode w) :=
  .ite (fun _ => reencodes_decodeFamily0) fun h0 =>
  .ite (fun h => .some (encNNN_of_opField h)) fun h1 =>
  .ite (fun h => .some (encNNN_of_opField h)) fun h2 =>
  .ite (fun h => .some (encXKK_of_opField h)) fun h3 =>
  .ite (fun h => .some (encXKK_of_opField h)) fun h4 =>
  .ite (fun h => reencodes_decodeNibble0 (encXYN_of_nField h)) fun h5 =>
  .ite (fun h => .some (encXKK_of_opField h)) fun h6 =>
  .ite (fun h => .some (encXKK_of_opField h)) fun h7 =>
  .ite (fun h => reencodes_decodeFamily8 h) fun h8 =>
  .ite (fun h => reencodes_decodeNibble0 (encXYN_of_nField h)) fun h9 =>
  .ite (fun h => .some (encNNN_of_opField h)) fun hA =>
  .ite (fun h => .some (encNNN_of_opField h)) fun hB =>
  .ite (fun h => .some (encXKK_of_opField h)) fun hC =>
  .ite (fun h => .some (encXYN_of_opField h)) fun hD =>
  .ite (fun h => reencodes_decodeFamilyE h) fun hE =>
  reencodes_decodeFamilyF (by bv_omega)

theorem decode_eq_some_iff {i : Instr} : decode w = some i ↔ encode i = w :=
  ⟨reencodes_decode w i, fun h => h ▸ decode_encode i⟩

end Reencode

/-- Settles O2: no bit of a recognized word is lost, by the family and secondary tests that recognized it. -/
theorem everyRecognizedWordReencodes : Obligations.EveryRecognizedWordReencodes :=
  reencodes_decode

/-! ### The rows of the opcode map (R66) -/

/-- Every encoded word is selected by its instruction's row. -/
theorem encodedRow (i : Instr) : EncodedRow.Statement i := by
  open EncodedRow in
  cases i
  exacts [cls, ret, jp _, call _, seImm _ _, sneImm _ _, seReg _ _, ldImm _ _, addImm _ _, ldReg _ _, orReg _ _,
    andReg _ _, xorReg _ _, addReg _ _, subReg _ _, shr _ _, subnReg _ _, shl _ _, sneReg _ _, ldI _, jpV0 _, rnd _ _,
    drw _ _ _, skp _, sknp _, ldVxDt _, ldVxK _, ldDtVx _, ldStVx _, addI _, ldF _, ldB _, ldMemVx _, ldVxMem _]

/-! A row's mask keeps the family and the selector of a word, so a word the row selects is made of these and its operands. -/

section Rows

variable {w v : Word} {op n : BitVec 4} {kk : Byte}

theorem opField_of_selects_F000 (hv : op.toNat * 4096 = v.toNat) (h : (OpRow.mk 0xF000 v).selects w = true) :
    opField w = op := by
  have hw := (selects_F000 w v).1 h
  exact BitVec.eq_of_toNat_eq (by rw [opField_toNat]; omega)

theorem fields_of_selects_F00F (hv : op.toNat * 4096 + n.toNat = v.toNat) (h : (OpRow.mk 0xF00F v).selects w = true) :
    opField w = op ∧ nField w = n := by
  have hw := (selects_F00F w v).1 h
  exact ⟨BitVec.eq_of_toNat_eq (by rw [opField_toNat]; omega), BitVec.eq_of_toNat_eq (by rw [nField_toNat]; omega)⟩

theorem fields_of_selects_F0FF (hv : op.toNat * 4096 + kk.toNat = v.toNat) (h : (OpRow.mk 0xF0FF v).selects w = true) :
    opField w = op ∧ kkField w = kk := by
  have hw := (selects_F0FF w v).1 h
  exact ⟨BitVec.eq_of_toNat_eq (by rw [opField_toNat]; omega), BitVec.eq_of_toNat_eq (by rw [kkField_toNat]; omega)⟩

theorem encNNN_of_selects (h : (OpRow.mk 0xF000 v).selects w = true) (hv : op.toNat * 4096 = v.toNat) :
    encNNN op (nnnField w) = w :=
  encNNN_of_opField (opField_of_selects_F000 hv h)

theorem encXKK_of_selects (h : (OpRow.mk 0xF000 v).selects w = true) (hv : op.toNat * 4096 = v.toNat) :
    encXKK op (xField w) (kkField w) = w :=
  encXKK_of_opField (opField_of_selects_F000 hv h)

theorem encXYN_of_selects (h : (OpRow.mk 0xF000 v).selects w = true) (hv : op.toNat * 4096 = v.toNat) :
    encXYN op (xField w) (yField w) (nField w) = w :=
  encXYN_of_opField (opField_of_selects_F000 hv h)

theorem encXYS_of_selects (h : (OpRow.mk 0xF00F v).selects w = true) (hv : op.toNat * 4096 + n.toNat = v.toNat) :
    encXYN op (xField w) (yField w) n = w :=
  encXYN_of_nField (fields_of_selects_F00F hv h).1 (fields_of_selects_F00F hv h).2

theorem encXSS_of_selects (h : (OpRow.mk 0xF0FF v).selects w = true) (hv : op.toNat * 4096 + kk.toNat = v.toNat) :
    encXKK op (xField w) kk = w :=
  encXKK_of_kkField (fields_of_selects_F0FF hv h).1 (fields_of_selects_F0FF hv h).2

/-- A word that row `r` selects is the word of an instruction of row `r`, whose operands are the fields of the word. -/
theorem exists_encode_of_row_selects (r : Fin 34)
    (h : opcodeMap[r.val]?.map (fun row => row.selects w) = some true) : ∃ i, encode i = w ∧ i.rowIndex = r :=
  match r, h with
  | 0, h => ⟨.cls, ((selects_FFFF w _).1 (Option.some.inj h)).symm, rfl⟩
  | 1, h => ⟨.ret, ((selects_FFFF w _).1 (Option.some.inj h)).symm, rfl⟩
  | 2, h => ⟨.jp _, encNNN_of_selects (Option.some.inj h) rfl, rfl⟩
  | 3, h => ⟨.call _, encNNN_of_selects (Option.some.inj h) rfl, rfl⟩
  | 4, h => ⟨.seImm _ _, encXKK_of_selects (Option.some.inj h) rfl, rfl⟩
  | 5, h => ⟨.sneImm _ _, encXKK_of_selects (Option.some.inj h) rfl, rfl⟩
  | 6, h => ⟨.seReg _ _, encXYS_of_selects (Option.some.inj h) rfl, rfl⟩
  | 7, h => ⟨.ldImm _ _, encXKK_of_selects (Option.some.inj h) rfl, rfl⟩
  | 8, h => ⟨.addImm _ _, encXKK_of_selects (Option.some.inj h) rfl, rfl⟩
  | 9, h => ⟨.ldReg _ _, encXYS_of_selects (Option.some.inj h) rfl, rfl⟩
  | 10, h => ⟨.orReg _ _, encXYS_of_selects (Option.some.inj h) rfl, rfl⟩
  | 11, h => ⟨.andReg _ _, encXYS_of_selects (Option.some.inj h) rfl, rfl⟩
  | 12, h => ⟨.xorReg _ _, encXYS_of_selects (Option.some.inj h) rfl, rfl⟩
  | 13, h => ⟨.addReg _ _, encXYS_of_selects (Option.some.inj h) rfl, rfl⟩
  | 14, h => ⟨.subReg _ _, encXYS_of_selects (Option.some.inj h) rfl, rfl⟩
  | 15, h => ⟨.shr _ _, encXYS_of_selects (Option.some.inj h) rfl, rfl⟩
  | 16, h => ⟨.subnReg _ _, encXYS_of_selects (Option.some.inj h) rfl, rfl⟩
  | 17, h => ⟨.shl _ _, encXYS_of_selects (Option.some.inj h) rfl, rfl⟩
  | 18, h => ⟨.sneReg _ _, encXYS_of_selects (Option.some.inj h) rfl, rfl⟩
  | 19, h => ⟨.ldI _, encNNN_of_selects (Option.some.inj h) rfl, rfl⟩
  | 20, h => ⟨.jpV0 _, encNNN_of_selects (Option.some.inj h) rfl, rfl⟩
  | 21, h => ⟨.rnd _ _, encXKK_of_selects (Option.some.inj h) rfl, rfl⟩
  | 22, h => ⟨.drw _ _ (nField w).toFin, encXYN_of_selects (Option.some.inj h) rfl, rfl⟩
  | 23, h => ⟨.skp _, encXSS_of_selects (Option.some.inj h) rfl, rfl⟩
  | 24, h => ⟨.sknp _, encXSS_of_selects (Option.some.inj h) rfl, rfl⟩
  | 25, h => ⟨.ldVxDt _, encXSS_of_selects (Option.some.inj h) rfl, rfl⟩
  | 26, h => ⟨.ldVxK _, encXSS_of_selects (Option.some.inj h) rfl, rfl⟩
  | 27, h => ⟨.ldDtVx _, encXSS_of_selects (Option.some.inj h) rfl, rfl⟩
  | 28, h => ⟨.ldStVx _, encXSS_of_selects (Option.some.inj h) rfl, rfl⟩
  | 29, h => ⟨.addI _, encXSS_of_selects (Option.some.inj h) rfl, rfl⟩
  | 30, h => ⟨.ldF _, encXSS_of_selects (Option.some.inj h) rfl, rfl⟩
  | 31, h => ⟨.ldB _, encXSS_of_selects (Option.some.inj h) rfl, rfl⟩
  | 32, h => ⟨.ldMemVx _, encXSS_of_selects (Option.some.inj h) rfl, rfl⟩
  | 33, h => ⟨.ldVxMem _, encXSS_of_selects (Option.some.inj h) rfl, rfl⟩

end Rows

/-- R66's selection: a row selects exactly the words that decode to its instruction. -/
theorem row_selects_iff_decodes (w : Word) (r : Fin 34) :
    opcodeMap[r.val]?.map (fun row => row.selects w) = some true ↔ ∃ i, decode w = some i ∧ i.rowIndex = r := by
  simp only [decode_eq_some_iff]
  constructor
  · exact exists_encode_of_row_selects r
  · rintro ⟨i, rfl, rfl⟩
    exact encodedRow i

/-- Settles O3: selection by a row is decoding to an instruction of that row, so two rows that select one word are the row
of the one instruction it decodes to. -/
theorem rowSelectsExactlyItsInstruction : Obligations.RowSelectsExactlyItsInstruction := by
  refine ⟨rfl, row_selects_iff_decodes, fun w r q hr hq => ?_⟩
  obtain ⟨i, hi, rfl⟩ := (row_selects_iff_decodes w r).1 hr
  obtain ⟨j, hj, rfl⟩ := (row_selects_iff_decodes w q).1 hq
  rw [Option.some.inj (hi.symm.trans hj)]

/-! ### The family of a word (R65) -/

section Family

variable {w : Word}

theorem decode_of_family0 (h : opField w = 0x0#4) : decode w = decodeFamily0 w := by simp [decode, h]

theorem decode_of_family5 (h : opField w = 0x5#4) : decode w = decodeNibble0 w (.seReg (xField w) (yField w)) := by
  simp [decode, h]

theorem decode_of_family8 (h : opField w = 0x8#4) : decode w = decodeFamily8 w := by simp [decode, h]

theorem decode_of_family9 (h : opField w = 0x9#4) : decode w = decodeNibble0 w (.sneReg (xField w) (yField w)) := by
  simp [decode, h]

theorem decode_of_familyE (h : opField w = 0xE#4) : decode w = decodeFamilyE w := by simp [decode, h]

theorem decode_of_familyF (h : opField w = 0xF#4) : decode w = decodeFamilyF w := by simp [decode, h]

theorem decodeNibble0_eq (i : Instr) : decodeNibble0 w i = if (nField w).toNat = 0 then some i else none := by
  simp only [decodeNibble0, ← BitVec.toNat_inj, BitVec.toNat_ofNat, Nat.reducePow, Nat.reduceMod]

end Family

/-- Settles O4: each family's own decoder, its selector compared as a number; in family 8 by the sixteen low nibbles. -/
theorem secondaryDecodeByFamily : Obligations.SecondaryDecodeByFamily := by
  intro w
  refine ⟨fun h => ?family0, fun h => ?family5, fun h => ?family9, fun h => ?family8, fun h => ?familyE, fun h => ?familyF⟩
  case family0 => exact decode_of_family0 h
  case family5 => rw [decode_of_family5 h, decodeNibble0_eq]
  case family9 => rw [decode_of_family9 h, decodeNibble0_eq]
  case family8 =>
    rw [decode_of_family8 h, decodeFamily8]
    obtain ⟨n⟩ := nField w
    fin_cases n <;> rfl
  case familyE =>
    rw [decode_of_familyE h]
    simp only [decodeFamilyE, ← BitVec.toNat_inj, BitVec.toNat_ofNat, Nat.reducePow, Nat.reduceMod]
  case familyF =>
    rw [decode_of_familyF h]
    simp only [decodeFamilyF, ← BitVec.toNat_inj, BitVec.toNat_ofNat, Nat.reducePow, Nat.reduceMod]

/-! ### Written-out words, and the ignored operand of the shifts -/

/-- Settles O5: nine of the words are the encodings of their terms; no row of family F has the low byte 0xFF. -/
theorem writtenOutWordsDecode : Obligations.WrittenOutWordsDecode :=
  ⟨decode_encode .cls, decode_encode (.call 0x210), decode_encode (.seImm 10 0x42), decode_encode (.addImm 1 0x02),
    decode_encode (.shl 1 2), decode_encode (.drw 1 2 3), decode_encode (.skp 1), decode_encode (.addI 3),
    decode_encode (.ldVxMem 4), by decide⟩

/-- Settles O6: both words decode with their own `y`, which neither meaning reads. -/
theorem shiftsIgnoreY : Obligations.ShiftsIgnoreY :=
  fun x y _ _ => ⟨decode_encode (.shr x y), rfl, decode_encode (.shl x y), rfl⟩

end Sys2Proof
end

section
/-! PROOFS. The cycle from what its fetch finds (R81 to R92): one equation per end of a cycle, and from them the halted, the
failing, the unrecognized and the completing cycle, the ticks of the timers (R87), and the one instruction that reads the
random byte (R82). -/

namespace Sys2Proof.Machine

/-! ### The ends of a cycle, computed (the converse of `cycle_cases`) -/

theorem State.halted_eq_true {s : State} : s.halted = true ↔ s.halt.code ≠ .ok := by simp [State.halted]

section Ends

variable {s : State} (rnd : Byte)

theorem cycle_of_halted (h : s.halted = true) : cycle rnd s = .next ((s.invoke rnd).report s.halt false) :=
  if_pos h

theorem cycle_of_badFetch (h : s.halted = false) {a : Nat} (hf : s.fetch = .error a) :
    cycle rnd s = .next (((s.invoke rnd).raise .addressOutOfRange (BitVec.ofNat 16 a)).report
      ⟨.addressOutOfRange, BitVec.ofNat 16 a⟩ false) := by
  rw [cycle, if_neg (by simp [h]), hf]
  rfl

theorem cycle_of_fetch (h : s.halted = false) {w : Word} (hf : s.fetch = .ok w) :
    cycle rnd s = (s.invoke rnd).runWord w := by
  rw [cycle, if_neg (by simp [h]), hf]

theorem cycle_of_unrecognized (h : s.halted = false) {w : Word} (hf : s.fetch = .ok w) (hd : decode w = none) :
    cycle rnd s = .next ((s.invoke rnd).tick.report ⟨.unknownOpcode, w⟩ s.toneDue) := by
  have hclose := State.close_of_running (s := s.invoke rnd) (State.halted_eq_false.1 h) ⟨.unknownOpcode, w⟩
  rw [cycle_of_fetch rnd h hf, State.runWord, hd, hclose]
  rfl

theorem cycle_of_executed (h : s.halted = false) {w : Word} (hf : s.fetch = .ok w) {i : Instr}
    (hd : decode w = some i) {u : State} (he : exec i (s.invoke rnd) = .next u) :
    cycle rnd s = .next (u.close ⟨.ok, 0⟩) := by
  rw [cycle_of_fetch rnd h hf, State.runWord, hd]
  simp only [he]

end Ends

/-- Settles O46: a step is a cycle, and every cycle returns. -/
theorem stepAlwaysReturns : Obligations.StepAlwaysReturns :=
  fun s => cycle_next (Config.randomByte s.ports.draws) s

/-! ### The timers (R87, R88) -/

theorem countDown_toNat (t : Byte) : (countDown t).toNat = t.toNat - 1 := by
  unfold countDown
  split
  · next h => rw [h]; rfl
  · next h => bv_omega

/-- The tick finds in `DT` what the instruction has left there: only `LD DT, Vx` writes it, and it raises nothing. -/
theorem exec_dt {s u : State} {i : Instr} (hf : s.fetched = some i) (he : exec i s = .next u) :
    u.dt = s.delayAtTick := by
  rw [State.delayAtTick, hf]
  cases i with
  | ldDtVx x => cases he; rfl
  | _ => exact exec_writes_only_row he (e := .delay) rfl

/-- The tick finds in `ST` what the instruction has left there: only `LD ST, Vx` writes it, and it raises nothing. -/
theorem exec_st {s u : State} {i : Instr} (hf : s.fetched = some i) (he : exec i s = .next u) :
    u.st = s.soundAtTick := by
  rw [State.soundAtTick, hf]
  cases i with
  | ldStVx x => cases he; rfl
  | _ => exact exec_writes_only_row he (e := .sound) rfl

theorem State.delayAtTick_of_unfetched {s : State} (hf : s.fetched = none) : s.delayAtTick = s.dt := by
  rw [State.delayAtTick, hf]

theorem State.soundAtTick_of_unfetched {s : State} (hf : s.fetched = none) : s.soundAtTick = s.st := by
  rw [State.soundAtTick, hf]

theorem State.toneDue_iff {s : State} : s.toneDue = true ↔ s.st = 1 := beq_iff_eq

/-- Settles O41: a machine that runs on has ticked on what the instruction left; a halted or raising cycle has not. -/
theorem everyCycleTicks : Obligations.EveryCycleTicks := by
  intro s t h
  by_cases hs : s.halt.code = .ok
  · cases cycle_cases_of_running hs h with
    | raised c info hc ht =>
      subst ht
      exact ⟨fun _ hok => absurd hok (Code.ne_ok_of_fatal hc), fun _ => ⟨rfl, rfl, rfl⟩⟩
    | unrecognized w hf ht =>
      subst ht
      rw [State.delayAtTick_of_unfetched hf, State.soundAtTick_of_unfetched hf]
      exact ⟨fun _ _ => ⟨countDown_toNat s.dt, countDown_toNat s.st, State.toneDue_iff⟩, fun hbad => absurd hs hbad⟩
    | completed i u hf he hq ht =>
      subst ht
      have hdt : u.dt = s.delayAtTick := exec_dt (s := s.invoke _) hf he
      have hst : u.st = s.soundAtTick := exec_st (s := s.invoke _) hf he
      rw [← hdt, ← hst]
      exact ⟨fun _ _ => ⟨countDown_toNat u.dt, countDown_toNat u.st, State.toneDue_iff⟩,
        fun hbad => absurd (hq.halt ▸ hs) hbad⟩
  · have ht := (cycle_of_halted _ (State.halted_eq_true.2 hs)).symm.trans h
    cases ht
    exact ⟨fun hok => absurd hok hs, fun _ => ⟨rfl, rfl, rfl⟩⟩

/-! ### The random byte (R82) -/

/-- The state with another random byte held for the current cycle (log 1). -/
def State.withRnd (s : State) (b : Byte) : State := { s with ports := { s.ports with rnd := b } }

section RandomByte

variable (s : State) (b : Byte)

theorem State.push_withRnd (addr : Word) : (s.withRnd b).push addr = (s.push addr).map fun t => t.withRnd b := by
  rw [State.push, State.push, apply_dite (Option.map _)]
  rfl

theorem State.pop_withRnd : (s.withRnd b).pop = s.pop.map fun p => (p.1, p.2.withRnd b) := by
  rw [State.pop, State.pop, apply_ite (Option.map _)]
  rfl

theorem State.memReads_withRnd (a n : Nat) : (s.withRnd b).memReads a n = s.memReads a n := by
  induction n generalizing a with
  | zero => rfl
  | succ n ih => rw [State.memReads, State.memReads, ih]; rfl

theorem State.spriteRows_withRnd (n : Fin 16) : (s.withRnd b).spriteRows n = s.spriteRows n :=
  s.memReads_withRnd b _ _

theorem State.skipOnKey_withRnd (x : RegIx) (down : Bool) :
    (s.withRnd b).skipOnKey x down = (s.skipOnKey x down).withRnd b := by
  have hkey : (s.withRnd b).keyOf x = s.keyOf x := rfl
  rw [State.skipOnKey, State.skipOnKey, hkey]
  cases s.keyOf x <;> rfl

theorem State.close_withRnd (ended : Status) : (s.withRnd b).close ended = (s.close ended).withRnd b := by
  rw [State.close, State.close, apply_ite (State.withRnd · b)]
  rfl

variable {s}

/-- An instruction that is not RND runs alike whatever the random byte is, and leaves it. -/
theorem exec_withRnd {i : Instr} (hi : ∀ x kk, i ≠ .rnd x kk) {t : State} (h : exec i s = .next t) :
    exec i (s.withRnd b) = .next (t.withRnd b) := by
  cases i with
  | rnd x kk => exact absurd rfl (hi x kk)
  | ret =>
    cases h
    simp only [exec, execRet, State.pop_withRnd]
    cases s.pop <;> rfl
  | call nnn =>
    cases h
    have hpush := s.push_withRnd b s.pc
    have hpc : (s.withRnd b).pc = s.pc := rfl
    simp only [exec, execCall, hpc, hpush]
    cases s.push s.pc <;> rfl
  | skp x | sknp x =>
    cases h
    exact congrArg _ (s.skipOnKey_withRnd b x _)
  | drw x y n =>
    cases h
    simp only [exec, execDrw, State.spriteRows_withRnd]
    cases s.spriteRows n with
    | error a => rfl
    | ok rows =>
      dsimp only
      rw [apply_ite (State.withRnd · b)]
      rfl
  | _ => cases h; rfl

end RandomByte

/-- Settles O45: in each of the four ends of a cycle, the end with `b` is the end with `a` holding `b`. -/
theorem randomByteMattersOnlyForRnd : Obligations.RandomByteMattersOnlyForRnd := by
  intro s a b hrnd
  obtain ⟨t, ht⟩ := cycle_next a s
  refine ⟨t, ht, ?_⟩
  change cycle b s = .next (t.withRnd b)
  cases cycle_cases ht with
  | halted h ht => subst ht; exact cycle_of_halted b h
  | badFetch h addr hf ht => subst ht; exact cycle_of_badFetch b h hf
  | unrecognized h w hf hd ht => subst ht; exact cycle_of_unrecognized b h hf hd
  | executed h w i u hf hd he ht =>
    subst ht
    have hi : ∀ x kk, i ≠ .rnd x kk := fun x kk e => hrnd x kk (by rw [State.fetched, hf, ← e]; exact hd)
    have heb : exec i (s.invoke b) = .next (u.withRnd b) := exec_withRnd b hi he
    rw [← u.close_withRnd b]
    exact cycle_of_executed b h hf hd heb

/-! ### What a step does with the word at PC -/

theorem decode_of_decodeBytes {hi lo : Byte} {i : Instr} (h : decodeBytes [hi, lo] = .ok (i, [])) :
    decode (wordOfBytes hi lo) = some i := by
  rw [decodeBytes] at h
  split at h
  · next j hj => cases h; exact hj
  · cases h

/-- Settles O36: the step is the end of an executed cycle, written out for a running and for a raising instruction. -/
theorem stepRunsTheFetchedInstruction : Obligations.StepRunsTheFetchedInstruction := by
  intro s t i hs hpc hd he
  rw [step, cycle_of_executed _ (State.halted_eq_false.2 hs) (s.fetch_ok hpc) (decode_of_decodeBytes hd) he]
  by_cases ht : t.halt.code = .ok
  · rw [if_pos ht, State.close_of_running ht]
    rfl
  · rw [if_neg ht, State.close, if_pos (State.halted_eq_true.2 ht)]
    rfl

/-- Settles O37, by the two laws of the fetch, and by `cycle_of_badFetch` where it fails. -/
theorem fetchReadsTheBigEndianWord : Obligations.FetchReadsTheBigEndianWord := by
  refine fun s => ⟨fun hpc => ⟨_, s.fetch_ok hpc, wordOfBytes_toNat _ _⟩, fun hpc => ?_, fun hpc => ?_,
    fun info hs hf => ?_⟩
  · rw [s.fetch_error (by omega), if_neg (by omega)]
  · rw [s.fetch_error (by omega), if_pos hpc]
  · have hstep := cycle_of_badFetch (Config.randomByte s.ports.draws) (State.halted_eq_false.2 hs) hf
    rw [BitVec.ofNat_toNat, BitVec.setWidth_eq] at hstep
    exact ⟨_, hstep, rfl, rfl, rfl⟩

/-- Settles O38: the cycle is one tick and one report, and the fetch reads neither the timers nor the ports. -/
theorem unrecognizedWordTicksOnly : Obligations.UnrecognizedWordTicksOnly :=
  fun _ _ hs hf hd => ⟨_, cycle_of_unrecognized _ (State.halted_eq_false.2 hs) hf hd, hf, rfl, rfl, State.toneDue_iff⟩

/-! ### The halted machine (R90) -/

/-- No host operation but `Reset` takes a halted machine out of HALT: an image load keeps the condition or latches its own. -/
theorem hostStep_keeps_halted {op : HostOp} {s u : State} (hs : s.halt.code ≠ .ok) (hop : op ≠ .reset)
    (h : hostStep op s = .next u) : u.halt.code ≠ .ok := by
  cases op with
  | reset => exact absurd rfl hop
  | loadImage bytes =>
    rcases loadImage_cases h with ⟨-, rfl⟩ | ⟨-, rfl⟩
    · exact hs
    · exact Code.ne_ok_of_fatal (c := .imageTooLarge) rfl
  | cycle rnd =>
    have hu := (cycle_of_halted rnd (State.halted_eq_true.2 hs)).symm.trans h
    cases hu
    exact hs
  | setKey | snapshot | isDirty | clearDirty => cases h; exact hs

/-- Settles O39: a halted machine's cycle is one report, and of the host operations only `Reset` writes HALT back to OK. -/
theorem haltedCycleDoesNothing : Obligations.HaltedCycleDoesNothing := by
  intro s hs
  refine ⟨⟨_, cycle_of_halted _ (State.halted_eq_true.2 hs), rfl, rfl, rfl⟩, fun op u h => ⟨fun hok => ?_, ?_⟩⟩
  · by_contra hop
    exact hostStep_keeps_halted hs hop h hok
  · rintro rfl
    cases h
    rfl

end Sys2Proof.Machine
end

section
/-! PROOFS. The display instructions (R95 to R98): the sprite of a `DRW` as the spec indexes it, by row and bit; then `DRW`
by its three outcomes, with what it draws in terms of the cells it toggles; then the obligations about CLS and DRW. -/

namespace Sys2Proof.Machine

/-! ### The sprite of a DRW -/

/-- The sprite of `n` rows at `I` lies in memory: phase 1 of R96 finds every byte. -/
def State.spriteInMemory (s : State) (n : Fin 16) : Prop := n.val = 0 ∨ s.i.toNat + n.val ≤ 4096

/-- The pixels of `DRW Vx, Vy, n`: the set bits of the bytes at `I` to `I + n - 1`, placed at column `V[x]` and row `V[y]`. -/
def State.drwPixels (s : State) (x y : RegIx) (n : Fin 16) : List (Nat × Nat) :=
  s.spriteAt x y ((List.range n.val).map fun j => s.cell (s.i.toNat + j))

/-- The cells `DRW Vx, Vy, n` toggles, in the order it toggles them (R96 phase 3). -/
def State.drwCells (s : State) (x y : RegIx) (n : Fin 16) : List FbCell :=
  (s.drwPixels x y n).filterMap (target s.params.edge)

section Sprite

variable {s : State} {x y : RegIx} {n : Fin 16}

theorem State.spriteInMemory_iff : s.spriteInMemory n ↔ n.val = 0 ∨ s.i.toNat + n.val - 1 ≤ 4095 := by
  unfold State.spriteInMemory; omega

theorem State.spriteRows_ok (h : s.spriteInMemory n) :
    s.spriteRows n = .ok ((List.range n.val).map fun j => s.cell (s.i.toNat + j)) := by
  rcases h with h | h
  · rw [State.spriteRows, h]; rfl
  · exact s.memReads_ok _ _ h

theorem State.spriteRows_error (h : ¬ s.spriteInMemory n) : s.spriteRows n = .error (max s.i.toNat 4096) := by
  obtain ⟨hn, hi⟩ := not_or.1 h
  exact s.memReads_error _ _ hn (Nat.lt_of_not_le hi)

/-- The mask `0x80 >> i` picks bit `7 - i` (R96, C10). -/
theorem and_mask_ne_zero_iff (row : Byte) {i : Nat} (hi : i < 8) :
    row &&& (0x80#8 >>> i) ≠ 0#8 ↔ row.getLsbD (7 - i) = true := by
  have hmask : ∀ k : Fin 8, 0x80#8 >>> k.val = BitVec.twoPow 8 (7 - k.val) ∧ BitVec.twoPow 8 (7 - k.val) ≠ 0#8 := by decide
  obtain ⟨hshift, hne⟩ := hmask ⟨i, hi⟩
  rw [hshift, BitVec.and_twoPow]
  cases row.getLsbD (7 - i) <;> simp [hne]

/-- The pixels are the set sprite bits, each at its mathematical coordinates (R96). -/
theorem State.mem_drwPixels {p : Nat × Nat} :
    p ∈ s.drwPixels x y n ↔
      ∃ j i, j < n.val ∧ i < 8 ∧ s.spriteBit j i ∧ p = ((s.reg x).toNat + i, (s.reg y).toNat + j) := by
  simp only [State.drwPixels, State.spriteAt, mem_spritePixels, List.length_map, List.length_range, List.getElem_map,
    List.getElem_range, exists_prop]
  refine exists_congr fun j => exists_congr fun i => ?_
  constructor
  · rintro ⟨hi, ⟨hj, hbit⟩, hp⟩
    exact ⟨hj, hi, (and_mask_ne_zero_iff _ hi).2 hbit, hp⟩
  · rintro ⟨hj, hi, hbit, hp⟩
    exact ⟨hi, ⟨hj, (and_mask_ne_zero_iff _ hi).1 hbit⟩, hp⟩

theorem offGrid_iff {p : Nat × Nat} : offGrid p = true ↔ 63 < p.1 ∨ 31 < p.2 := by simp [offGrid]

/-- The check of phase 2 finds a pixel iff a set sprite bit is off the grid (R96). -/
theorem State.any_offGrid_drwPixels : (s.drwPixels x y n).any offGrid = true ↔ s.drawsOffGrid x y n := by
  simp only [List.any_eq_true, offGrid_iff, State.mem_drwPixels]
  constructor
  · rintro ⟨_, ⟨j, i, hj, hi, hbit, rfl⟩, hoff⟩
    exact ⟨j, i, hj, hi, hbit, hoff⟩
  · rintro ⟨j, i, hj, hi, hbit, hoff⟩
    exact ⟨_, ⟨j, i, hj, hi, hbit, rfl⟩, hoff⟩

/-- Phase 2 refuses under the policy fault alone (R96). -/
theorem State.drwCheck_iff :
    ((s.drwPixels x y n).any offGrid && s.params.edge == .fault) = true ↔ s.params.edge = .fault ∧ s.drawsOffGrid x y n := by
  rw [Bool.and_eq_true, beq_iff_eq, State.any_offGrid_drwPixels, and_comm]

/-- The list of cells names exactly the cells of R97. -/
theorem State.mem_drwCells {c : FbCell} : c ∈ s.drwCells x y n ↔ s.toggles x y n c := by
  simp only [State.drwCells, List.mem_filterMap, State.mem_drwPixels]
  constructor
  · rintro ⟨_, ⟨j, i, hj, hi, hbit, rfl⟩, hc⟩
    exact ⟨j, i, hj, hi, hbit, target_eq_some.1 hc⟩
  · rintro ⟨j, i, hj, hi, hbit, hc⟩
    exact ⟨_, ⟨j, i, hj, hi, hbit, rfl⟩, target_eq_some.2 hc⟩

theorem State.drwCells_nodup : (s.drwCells x y n).Nodup :=
  sprite_cells_nodup _ _ _ _ (by have := n.isLt; simp only [List.length_map, List.length_range]; omega)

end Sprite

/-! ### The three outcomes of a DRW -/

/-- What a `DRW` that passes its checks leaves (R96 phase 3). -/
def State.drawn (s : State) (x y : RegIx) (n : Fin 16) : State := s.drawPixels (s.drwPixels x y n)

section Outcomes

variable {s : State} {x y : RegIx} {n : Fin 16}

/-- Phase 1 fails at `I`, or at 4096 where `I` itself is in memory. -/
theorem exec_drw_of_leaves_memory (h : ¬ s.spriteInMemory n) :
    exec (.drw x y n) s = .next (s.raise .addressOutOfRange (if 4095 < s.i.toNat then s.i else 0x1000)) := by
  have hinfo : BitVec.ofNat 16 (max s.i.toNat 4096) = if 4095 < s.i.toNat then s.i else 0x1000 := by
    split
    · next hi => rw [Nat.max_eq_left hi, BitVec.ofNat_toNat, BitVec.setWidth_eq]
    · next hi => rw [Nat.max_eq_right (by omega)]; rfl
  simp only [exec, execDrw, State.spriteRows_error h, hinfo]

theorem exec_drw_of_inMemory (h : s.spriteInMemory n) :
    exec (.drw x y n) s = .next
      (if (s.drwPixels x y n).any offGrid && s.params.edge == .fault then s.raise .drawOutOfRange (encode (.drw x y n))
      else s.drawn x y n) := by
  simp only [exec, execDrw, State.spriteRows_ok h]
  rfl

/-- Phase 2 fails: a set bit off the grid, under the policy fault. -/
theorem exec_drw_of_refused (h : s.spriteInMemory n) (hfault : s.params.edge = .fault) (hoff : s.drawsOffGrid x y n) :
    exec (.drw x y n) s = .next (s.raise .drawOutOfRange (encode (.drw x y n))) := by
  rw [exec_drw_of_inMemory h, if_pos (State.drwCheck_iff.2 ⟨hfault, hoff⟩)]

theorem exec_drw_of_drawable (h : s.drawable x y n) : exec (.drw x y n) s = .next (s.drawn x y n) := by
  obtain ⟨hmem, hgrid⟩ := h
  rw [exec_drw_of_inMemory hmem, if_neg (mt State.drwCheck_iff.1 (not_and.2 hgrid))]

end Outcomes

/-! ### What a drawing DRW leaves -/

section Drawn

variable (s : State) (x y : RegIx) (n : Fin 16)

/-- A draw depends on the pixels only through the cells they land on. -/
theorem State.drawn_eq : s.drawn x y n =
    { s.setReg vf (collisionFlag (blit s.fb false (s.drwCells x y n)).2) with
      fb := (blit s.fb false (s.drwCells x y n)).1, dirty := true }.advance := rfl

theorem State.fbGet_drawn (c : FbCell) :
    fbGet (s.drawn x y n).fb c = (fbGet s.fb c ^^ decide (c ∈ s.drwCells x y n)) :=
  (blit_spec _ s.fb false State.drwCells_nodup).1 c

variable {s x y n}

theorem State.fbGet_drawn_of_toggles {c : FbCell} (h : s.toggles x y n c) :
    fbGet (s.drawn x y n).fb c = !fbGet s.fb c := by
  simp [State.fbGet_drawn, State.mem_drwCells, h]

theorem State.fbGet_drawn_of_not_toggles {c : FbCell} (h : ¬ s.toggles x y n c) :
    fbGet (s.drawn x y n).fb c = fbGet s.fb c := by
  simp [State.fbGet_drawn, State.mem_drwCells, h]

theorem State.drawn_vf : (s.drawn x y n).reg vf = collisionFlag ((s.drwCells x y n).any (fbGet s.fb)) := by
  have hhit : (blit s.fb false (s.drwCells x y n)).2 = (s.drwCells x y n).any (fbGet s.fb) :=
    (blit_spec _ s.fb false State.drwCells_nodup).2
  rw [← hhit]
  exact s.reg_setReg_same vf _

theorem collisionFlag_eq_one {hit : Bool} : collisionFlag hit = 1 ↔ hit = true := by cases hit <;> decide

theorem collisionFlag_eq_zero {hit : Bool} : collisionFlag hit = 0 ↔ hit = false := by cases hit <;> decide

/-- `VF` is 1 iff a cell was on before its toggle (R96). -/
theorem State.drawn_vf_eq_one_iff :
    (s.drawn x y n).reg vf = 1 ↔ ∃ c, s.toggles x y n c ∧ fbGet s.fb c = true := by
  simp only [State.drawn_vf, collisionFlag_eq_one, List.any_eq_true, State.mem_drwCells]

/-- `VF` is 0 iff every cell toggled was off (R96). -/
theorem State.drawn_vf_eq_zero_iff :
    (s.drawn x y n).reg vf = 0 ↔ ∀ c, s.toggles x y n c → fbGet s.fb c = false := by
  simp only [State.drawn_vf, collisionFlag_eq_zero, List.any_eq_false, State.mem_drwCells, Bool.not_eq_true]

end Drawn

/-! ### CLS and DRW against their rules -/

/-- Settles O7: the grid is the cleared one, and R36's row of CLS is its frame. -/
theorem clsClearsTheGrid : Obligations.ClsClearsTheGrid :=
  ⟨decode_encode .cls, fun _ =>
    ⟨_, rfl, fbGet_fbClear, rfl, rfl, fun _ he => exec_writes_only_row (i := .cls) rfl he, rfl, rfl, rfl⟩⟩

/-- Settles O8, by the three outcomes of a DRW; R36's row of DRW is the frame of the third. -/
theorem drwFollowsItsRule : Obligations.DrwFollowsItsRule := by
  refine ⟨fun x y n => decode_encode (.drw x y n), fun s x y n => ⟨fun hn hi => ?address, fun hmem hfault hoff => ?policy,
    fun hdraw => ?drawn⟩⟩
  case address =>
    refine exec_drw_of_leaves_memory fun hmem => ?_
    rcases State.spriteInMemory_iff.1 hmem with h | h <;> omega
  case policy => exact exec_drw_of_refused (State.spriteInMemory_iff.2 hmem) hfault hoff
  case drawn =>
    have hexec := exec_drw_of_drawable hdraw
    exact ⟨_, hexec, fun _ => State.fbGet_drawn_of_toggles, fun _ => State.fbGet_drawn_of_not_toggles,
      State.drawn_vf_eq_one_iff.2, State.drawn_vf_eq_zero_iff.2, rfl, rfl, fun _ he => exec_writes_only_row hexec he,
      rfl, rfl, rfl⟩

/-! ### The edge policy (R97) -/

/-- The state under another edge policy. -/
def State.withEdge (s : State) (e : EdgePolicy) : State := { s with params := { s.params with edge := e } }

/-- On the grid a pixel has the same target under every policy. -/
theorem target_of_onGrid {p : Nat × Nat} (h : offGrid p = false) (e e' : EdgePolicy) : target e p = target e' p := by
  simp [target, h]

theorem State.drawn_withEdge {s : State} {x y : RegIx} {n : Fin 16} (h : ¬ s.drawsOffGrid x y n) (e : EdgePolicy) :
    (s.withEdge e).drawn x y n = (s.drawn x y n).withEdge e := by
  have hcells : (s.withEdge e).drwCells x y n = s.drwCells x y n := by
    refine List.filterMap_congr fun p hp => target_of_onGrid ?_ _ _
    rw [← State.any_offGrid_drwPixels, List.any_eq_true] at h
    exact Bool.eq_false_iff.2 fun hoff => h ⟨p, hp, hoff⟩
  rw [State.drawn_eq, State.drawn_eq, hcells]
  rfl

/-- Settles O9: a sprite outside memory is refused alike, and on the grid the pixels land on the same cells. -/
theorem policiesAgreeOnTheGrid : Obligations.PoliciesAgreeOnTheGrid := by
  intro s x y n e hgrid t ht
  change exec (.drw x y n) (s.withEdge e) = .next { t with params := (s.withEdge e).params }
  by_cases hmem : s.spriteInMemory n
  · rw [exec_drw_of_drawable ⟨hmem, fun _ => hgrid⟩] at ht
    cases ht
    have hdraw : (s.withEdge e).drawable x y n := ⟨hmem, fun _ => hgrid⟩
    rw [exec_drw_of_drawable hdraw, State.drawn_withEdge hgrid]
    rfl
  · rw [exec_drw_of_leaves_memory hmem] at ht
    cases ht
    exact exec_drw_of_leaves_memory (s := s.withEdge e) hmem

/-! ### Drawing after another display instruction (R98) -/

/-- Settles O10: after CLS no cell is on. -/
theorem clearedGridNeverCollides : Obligations.ClearedGridNeverCollides := by
  intro s t x y n hcls hdraw
  cases hcls
  exact ⟨_, exec_drw_of_drawable hdraw, State.drawn_vf_eq_zero_iff.2 fun c _ => fbGet_fbClear c⟩

/-- A `DRW Vx, Vy, n` reads the same values in two states: its place, its sprite, the edge policy. -/
structure SameDraw (x y : RegIx) (s t : State) : Prop where
  index : t.i = s.i
  cell : ∀ a, t.cell a = s.cell a
  column : t.reg x = s.reg x
  row : t.reg y = s.reg y
  params : t.params = s.params

section SameDraw

variable {s t : State} {x y : RegIx} {n : Fin 16}

theorem SameDraw.drawable_iff (h : SameDraw x y s t) : t.drawable x y n ↔ s.drawable x y n := by
  simp only [State.drawable, State.drawsOffGrid, State.spriteBit, h.index, h.cell, h.column, h.row, h.params]

theorem SameDraw.toggles_iff (h : SameDraw x y s t) (c : FbCell) : t.toggles x y n c ↔ s.toggles x y n c := by
  simp only [State.toggles, State.spriteBit, h.index, h.cell, h.column, h.row, h.params]

/-- A draw does not disturb what the same draw reads again, unless `VF` holds one of its coordinates. -/
theorem sameDraw_drawn (hx : x ≠ vf) (hy : y ≠ vf) : SameDraw x y s (s.drawn x y n) where
  index := rfl
  cell _ := rfl
  column := s.reg_setReg_other _ hx
  row := s.reg_setReg_other _ hy
  params := rfl

theorem SameDraw.drawn_fb (h : SameDraw x y s (s.drawn x y n)) : ((s.drawn x y n).drawn x y n).fb = s.fb := by
  refine fb_ext fun c => ?_
  by_cases hc : s.toggles x y n c
  · rw [State.fbGet_drawn_of_toggles ((h.toggles_iff c).2 hc), State.fbGet_drawn_of_toggles hc, Bool.not_not]
  · rw [State.fbGet_drawn_of_not_toggles (mt (h.toggles_iff c).1 hc), State.fbGet_drawn_of_not_toggles hc]

end SameDraw

/-- Settles O11: the second draw toggles the same cells back, and finds on what the first found off. -/
theorem drawingTwiceRestores : Obligations.DrawingTwiceRestores := by
  intro s x y n hx hy hdraw
  have hsame : SameDraw x y s (s.drawn x y n) := sameDraw_drawn hx hy
  refine ⟨_, _, exec_drw_of_drawable hdraw, exec_drw_of_drawable (hsame.drawable_iff.2 hdraw), hsame.drawn_fb, ?_⟩
  rw [State.drawn_vf_eq_one_iff]
  refine exists_congr fun c => ?_
  rw [hsame.toggles_iff]
  refine and_congr_right fun hc => ?_
  rw [State.fbGet_drawn_of_toggles hc, Bool.not_eq_true']

end Sys2Proof.Machine
end

section
/-! PROOFS. The control transfers (R100 to R104): RET and CALL by the depth of the call stack, one equation per outcome, and
from them what each transfer does to `PC` and to the stack; R36's row of the instruction is its frame. -/

namespace Sys2Proof.Machine

/-! ### RET and CALL by the depth of the call stack -/

section Stack

variable {s : State}

/-- The state a push at depth `k` leaves: the entry written, the depth one more (R102). -/
def State.pushed (s : State) (k : Fin 16) (addr : Word) : State := { s with stack := s.stack.set k addr, sp := k.succ }

/-- The state a pop from depth `k + 1` leaves: the depth one less, the entries as they were (R25, R100). -/
def State.popped (s : State) (k : Fin 16) : State := { s with sp := k.castSucc }

theorem State.push_of_depth {k : Fin 16} (h : s.sp.val = k.val) (addr : Word) : s.push addr = some (s.pushed k addr) := by
  have hroom : s.sp.val < Config.stackDepth := h ▸ k.isLt
  rw [State.push, dif_pos hroom]
  simp only [h]
  rfl

theorem State.pop_of_depth {k : Fin 16} (h : s.sp.val = k.val + 1) : s.pop = some (s.stack[k], s.popped k) := by
  rw [State.pop, if_neg (by omega)]
  simp only [h]
  rfl

theorem exec_ret_of_empty (h : s.sp.val = 0) : exec .ret s = .next (s.raise .stackUnderflow s.pc) := by
  rw [exec, execRet, State.pop_none.2 h]

theorem exec_ret_of_depth {k : Fin 16} (h : s.sp.val = k.val + 1) :
    exec .ret s = .next ((s.popped k).setPc s.stack[k]).advance := by
  rw [exec, execRet, State.pop_of_depth h]

theorem exec_call_of_full (nnn : Imm12) (h : s.sp.val = 16) :
    exec (.call nnn) s = .next (s.raise .stackOverflow s.pc) := by
  rw [exec, execCall, State.push_none.2 h]

theorem exec_call_of_depth (nnn : Imm12) {k : Fin 16} (h : s.sp.val = k.val) :
    exec (.call nnn) s = .next ((s.pushed k s.pc).setPc (zextImm nnn)) := by
  rw [exec, execCall, State.push_of_depth h]

/-- The entry a push writes holds the pushed address. -/
theorem State.pushed_entry (k : Fin 16) (addr : Word) : (s.pushed k addr).stack[k] = addr :=
  Vector.getElem_set_self k.isLt

end Stack

/-- R36's row of CALL, at the depth the pushed entry is named by. -/
theorem mayWrite_call (k : Fin 16) (nnn : Imm12) (e : Element) :
    mayWrite k.val (.call nnn) e = (e == .depth || e == .stackEntry k) := by
  cases e with
  | stackEntry j =>
    rw [Bool.eq_iff_iff]
    simp [mayWrite, Fin.ext_iff]
  | _ => rfl

/-! ### The transfers against their rules -/

/-- Settles O12, by the depth; R36's row of RET is its frame. -/
theorem retResumesAfterTheCall : Obligations.RetResumesAfterTheCall := by
  refine ⟨decode_encode .ret, fun s => ⟨exec_ret_of_empty, fun k hk => ?_⟩⟩
  have hexec := exec_ret_of_depth hk
  exact ⟨_, hexec, rfl, rfl, fun _ he => exec_writes_only_row hexec he, rfl, rfl, rfl⟩

/-- Settles O13: zero extension keeps the value of `nnn`. -/
theorem jpSetsPc : Obligations.JpSetsPc :=
  fun nnn => ⟨decode_encode (.jp nnn), fun _ =>
    ⟨_, rfl, zextImm_toNat nnn, fun _ he => exec_writes_only_row (i := .jp nnn) rfl he, rfl, rfl, rfl⟩⟩

/-- Settles O14, by the depth; R36's row of CALL is its frame. -/
theorem callPushesItsOwnAddress : Obligations.CallPushesItsOwnAddress := by
  refine fun nnn => ⟨decode_encode (.call nnn), fun s => ⟨exec_call_of_full nnn, fun k hk => ?_⟩⟩
  have hexec := exec_call_of_depth nnn hk
  refine ⟨_, hexec, State.pushed_entry k s.pc, rfl, zextImm_toNat nnn, fun e he => ?_, rfl, rfl, rfl⟩
  have hrow : mayWrite s.sp.val (.call nnn) e = false := by rw [hk, mayWrite_call]; exact he
  exact exec_writes_only_row hexec hrow

/-- Settles O15: the sum of a 12-bit and an 8-bit value stays below 2^16. -/
theorem jpV0AddsRegisterZero : Obligations.JpV0AddsRegisterZero :=
  fun nnn => ⟨decode_encode (.jpV0 nnn), fun s =>
    ⟨_, rfl, s.offsetTarget_toNat nnn, fun _ he => exec_writes_only_row (i := .jpV0 nnn) rfl he, rfl, rfl, rfl⟩⟩

/-- Settles O16: the RET pops the entry the CALL pushed, which is the address of the CALL. -/
theorem callThenRetRestoresDepth : Obligations.CallThenRetRestoresDepth := by
  intro s nnn d hd
  refine ⟨_, exec_call_of_depth nnn hd, fun u hdepth hentry => ⟨_, exec_ret_of_depth hdepth, ?_, Fin.ext hd.symm⟩⟩
  have hret : u.stack[d] = s.pc := hentry.trans (State.pushed_entry d s.pc)
  exact congrArg (· + 2) hret

end Sys2Proof.Machine
end

section
/-! PROOFS. The conditional skips (R105 to R111): what a skip that completes does to `PC`, once for a skip taken when its
condition holds and once for one taken when it fails; then the key skips by the value of `V[x]`. -/

namespace Sys2Proof.Machine

section Skips

variable {s : State}

/-! ### A skip that completes -/

theorem State.framePcOnly_skipIf (s : State) (taken : Bool) : FramePcOnly s (s.skipIf taken) :=
  ⟨fun e _ => e.same_outside s _ s.halt s.ports, rfl, rfl, rfl⟩

section Completes

variable {i : Instr} {taken : Bool} {p : Prop} [Decidable p]

theorem exec_skips_when (hexec : exec i s = .next (s.skipIf taken)) (h : taken = true ↔ p) :
    ∃ t, exec i s = .next t ∧ t.pc = (if p then s.pc + 4 else s.pc + 2) ∧ FramePcOnly s t :=
  ⟨_, hexec, if_congr h rfl rfl, s.framePcOnly_skipIf taken⟩

theorem exec_skips_unless (hexec : exec i s = .next (s.skipIf taken)) (h : taken = true ↔ ¬ p) :
    ∃ t, exec i s = .next t ∧ t.pc = (if p then s.pc + 2 else s.pc + 4) ∧ FramePcOnly s t := by
  obtain ⟨t, ht, hpc, hframe⟩ := exec_skips_when hexec h
  exact ⟨t, ht, hpc.trans (ite_not ..), hframe⟩

end Completes

/-! ### A skip on a key, by the value of `V[x]` -/

variable {x : RegIx}

theorem State.keyOf_of_number {k : Fin 16} (h : (s.reg x).toNat = k.val) : s.keyOf x = some s.key[k] := by
  rw [State.keyOf, h]
  exact Vector.getElem?_eq_getElem k.isLt

theorem State.keyOf_of_above (h : 15 < (s.reg x).toNat) : s.keyOf x = none :=
  Vector.getElem?_eq_none h

theorem State.skipOnKey_of_number (down : Bool) {k : Fin 16} (h : (s.reg x).toNat = k.val) :
    s.skipOnKey x down = s.skipIf (s.key[k] == down) := by
  rw [State.skipOnKey, State.keyOf_of_number h]

theorem State.skipOnKey_of_above (down : Bool) (h : 15 < (s.reg x).toNat) :
    s.skipOnKey x down = s.raise .keyIndexOutOfRange (BitVec.ofNat 16 (s.reg x).toNat) := by
  rw [State.skipOnKey, State.keyOf_of_above h, BitVec.ofNat_toNat]

end Skips

/-! ### The skips against their rules -/

/-- Settles O17: SE is taken where the register equals the byte, SNE where it does not. -/
theorem skipsOnImmediate : Obligations.SkipsOnImmediate :=
  fun x kk => ⟨decode_encode (.seImm x kk), decode_encode (.sneImm x kk), fun _ =>
    ⟨exec_skips_when rfl beq_iff_eq, exec_skips_unless rfl bne_iff_ne⟩⟩

/-- Settles O18: SE is taken where the two registers are equal, SNE where they are not. -/
theorem skipsOnRegisters : Obligations.SkipsOnRegisters :=
  fun x y => ⟨decode_encode (.seReg x y), decode_encode (.sneReg x y), fun _ =>
    ⟨exec_skips_when rfl beq_iff_eq, exec_skips_unless rfl bne_iff_ne⟩⟩

/-- Settles O19, by whether `V[x]` numbers a key: SKP is taken where that key is 1, SKNP where it is 0. -/
theorem skipsOnKey : Obligations.SkipsOnKey := by
  refine fun x => ⟨decode_encode (.skp x), decode_encode (.sknp x), fun s => ⟨fun k hk => ⟨?_, ?_⟩, fun habove => ⟨?_, ?_⟩⟩⟩
  · exact exec_skips_when (congrArg _ (State.skipOnKey_of_number true hk)) beq_iff_eq
  · have hup : (s.key[k] == false) = true ↔ ¬ s.key[k] = true := by rw [beq_iff_eq, Bool.not_eq_true]
    exact exec_skips_unless (congrArg _ (State.skipOnKey_of_number false hk)) hup
  · exact congrArg _ (State.skipOnKey_of_above true habove)
  · exact congrArg _ (State.skipOnKey_of_above false habove)

end Sys2Proof.Machine
end

section
/-! PROOFS. The immediate loads and the random byte (R112 to R115): once, what an instruction that writes one register and
advances does; LD I is the one that writes the index register instead. -/

namespace Sys2Proof.Machine

/-! ### An instruction that writes one register and advances -/

theorem State.frameRegs_setReg_advance (s : State) (x : RegIx) (b : Byte) : FrameRegs [x] s (s.setReg x b).advance :=
  ⟨fun e he => e.same_setReg_advance ((Bool.or_eq_false_iff.1 he).1) s b, rfl, rfl, rfl⟩

theorem exec_writes_reg {i : Instr} {s : State} {x : RegIx} {b : Byte} (hexec : exec i s = .next (s.setReg x b).advance) :
    ∃ t, exec i s = .next t ∧ t.reg x = b ∧ t.pc = s.pc + 2 ∧ FrameRegs [x] s t :=
  ⟨_, hexec, s.reg_setReg_same x b, rfl, s.frameRegs_setReg_advance x b⟩

/-! ### The loads against their rules -/

/-- Settles O20: the byte written is `kk`. -/
theorem ldImmLoadsTheByte : Obligations.LdImmLoadsTheByte :=
  fun x kk => ⟨decode_encode (.ldImm x kk), fun _ => exec_writes_reg rfl⟩

/-- Settles O21: the byte written is the sum of two bytes, which is taken modulo 256. -/
theorem addImmAddsWithoutFlag : Obligations.AddImmAddsWithoutFlag := by
  refine fun x kk => ⟨decode_encode (.addImm x kk), fun s => ?_⟩
  obtain ⟨t, hexec, hreg, hpc, hframe⟩ := exec_writes_reg (i := .addImm x kk) (s := s) rfl
  exact ⟨t, hexec, hreg ▸ BitVec.toNat_add (s.reg x) kk, hpc, hframe⟩

/-- Settles O22: zero extension keeps the value of `nnn`, and R36's row of LD I is its frame. -/
theorem ldILoadsTheIndex : Obligations.LdILoadsTheIndex :=
  fun nnn => ⟨decode_encode (.ldI nnn), fun _ =>
    ⟨_, rfl, zextImm_toNat nnn, rfl, fun _ he => exec_writes_only_row (i := .ldI nnn) rfl he, rfl, rfl, rfl⟩⟩

/-- Settles O23: the byte written is the random byte AND `kk`, so each of its bits is 0 where that of `kk` is. -/
theorem rndMasksTheRandomByte : Obligations.RndMasksTheRandomByte := by
  refine fun x kk => ⟨decode_encode (.rnd x kk), fun s => ?_⟩
  obtain ⟨t, hexec, hreg, hpc, hframe⟩ := exec_writes_reg (i := .rnd x kk) (s := s) rfl
  refine ⟨t, hexec, hreg, fun b hb => ?maskedBit, fun hzero => ?noBits, fun hones => ?allBits, hpc, hframe⟩
  case maskedBit => rw [hreg, BitVec.getLsbD_and, hb, Bool.and_false]
  case noBits => rw [hreg, hzero]; exact BitVec.and_zero
  case allBits => rw [hreg, hones]; exact BitVec.and_allOnes

end Sys2Proof.Machine
end

section
/-! PROOFS. The register-to-register operations (R117 to R127): the four that write one register and no flag, by the byte
they write; the five that write a flag, once for all by R117's order, with the flags and the results as numbers. -/

namespace Sys2Proof.Machine

/-! ### The copy and the bitwise operations (R118 to R121) -/

/-- Settles O24: the byte written is `V[y]`. -/
theorem ldRegCopies : Obligations.LdRegCopies :=
  fun x y => ⟨decode_encode (.ldReg x y), fun _ => exec_writes_reg rfl⟩

theorem exec_writes_bits {i : Instr} {s : State} {x : RegIx} {b : Byte} {bit : Nat → Bool}
    (hexec : exec i s = .next (s.setReg x b).advance) (hbit : ∀ k, b.getLsbD k = bit k) :
    ∃ t, exec i s = .next t ∧ (∀ k, (t.reg x).getLsbD k = bit k) ∧ t.pc = s.pc + 2 ∧ FrameRegs [x] s t := by
  obtain ⟨t, ht, hreg, hpc, hframe⟩ := exec_writes_reg hexec
  exact ⟨t, ht, hreg ▸ hbit, hpc, hframe⟩

/-- Settles O25: the byte written is the bitwise operation of the two operands. -/
theorem bitwiseOperationsWriteNoFlag : Obligations.BitwiseOperationsWriteNoFlag :=
  fun x y => ⟨decode_encode (.orReg x y), decode_encode (.andReg x y), decode_encode (.xorReg x y), fun _ =>
    ⟨exec_writes_bits rfl fun _ => BitVec.getLsbD_or, exec_writes_bits rfl fun _ => BitVec.getLsbD_and,
      exec_writes_bits rfl fun _ => BitVec.getLsbD_xor⟩⟩

/-! ### The flags and the results as numbers -/

section Bytes

variable (a b : Byte)

theorem addFlag_eq : addFlag a b = if b.toNat > 255 - a.toNat then 1 else 0 := by
  simp only [addFlag, sumExceedsByte, decide_eq_true_eq]

theorem subFlag_eq : subFlag a b = if b.toNat > 255 - a.toNat then 0 else 1 := by
  simp only [subFlag, sumExceedsByte, decide_eq_true_eq]

/-- The test of ADD, SUB and SUBN is that the sum does not fit a byte (R127). -/
theorem sumExceedsByte_iff : sumExceedsByte a b = true ↔ 256 ≤ a.toNat + b.toNat := by
  rw [sumExceedsByte, decide_eq_true_eq]
  omega

theorem addFlag_toNat : (addFlag a b).toNat = if 256 ≤ a.toNat + b.toNat then 1 else 0 := by
  simp only [addFlag, sumExceedsByte_iff, apply_ite BitVec.toNat]
  rfl

theorem subFlag_toNat : (subFlag a b).toNat = if 256 ≤ a.toNat + b.toNat then 0 else 1 := by
  simp only [subFlag, sumExceedsByte_iff, apply_ite BitVec.toNat]
  rfl

theorem shrFlag_toNat : (shrFlag a).toNat = a.toNat % 2 :=
  (BitVec.toNat_and ..).trans (Nat.and_two_pow_sub_one_eq_mod a.toNat 1)

theorem shlFlag_toNat : (shlFlag a).toNat = a.toNat % 8 :=
  (BitVec.toNat_and ..).trans (Nat.and_two_pow_sub_one_eq_mod a.toNat 3)

theorem byte_sub_toNat : (a - b).toNat = (a.toNat + 256 - b.toNat) % 256 := by
  rw [BitVec.toNat_sub]
  omega

theorem byte_shiftRight_one_toNat : (a >>> 1).toNat = a.toNat / 2 := by
  rw [BitVec.toNat_ushiftRight, Nat.shiftRight_eq_div_pow]

theorem byte_shiftLeft_one_toNat : (a <<< 1).toNat = 2 * a.toNat % 256 := by
  rw [BitVec.toNat_shiftLeft, Nat.shiftLeft_eq, Nat.mul_comm]

end Bytes

/-! ### An instruction that writes a flag, then a result (R117) -/

/-- An instruction completes with `VF` the flag `f`, unless `x` is 15, and `V[x]` the byte of value `value`; it advances and
writes nothing else. -/
def WritesFlagThenValue (i : Instr) (s : State) (x : RegIx) (f : Byte) (value : Nat) : Prop :=
  ∃ t, exec i s = .next t ∧ (x ≠ vf → t.reg vf = f) ∧ (t.reg x).toNat = value ∧ t.pc = s.pc + 2 ∧ FrameRegs [vf, x] s t

section FlagThenResult

variable {i : Instr} {s : State} {x y : RegIx} {f : Byte} {value : Nat}

/-- After the flag write the registers read as `regAfterFlag` says. -/
theorem State.reg_setReg_vf (s : State) (f : Byte) (z : RegIx) : (s.setReg vf f).reg z = s.regAfterFlag f z :=
  s.reg_setReg vf f z

theorem State.regAfterFlag_of_ne_vf {z : RegIx} (f : Byte) (h : z ≠ vf) : s.regAfterFlag f z = s.reg z :=
  if_neg h

theorem State.frameRegs_flagThenResult (s : State) (f : Byte) (x : RegIx) (result : State → Byte) :
    FrameRegs [vf, x] s (s.flagThenResult f x result) := by
  refine ⟨fun e he => e.same_flagThenResult ?_ s f result, rfl, rfl, rfl⟩
  simpa only [List.any_cons, List.any_nil, Bool.or_false] using he

/-- An operation `op` of family 8 that writes a flag reads its operands after the flag write. -/
theorem exec_writes_flag_then_value {flag : Byte} {op : Byte → Byte → Byte}
    (hexec : exec i s = .next (s.flagThenResult flag x fun t => op (t.reg x) (t.reg y))) (hflag : flag = f)
    (hvalue : (op (s.regAfterFlag f x) (s.regAfterFlag f y)).toNat = value) : WritesFlagThenValue i s x f value := by
  subst hflag
  refine ⟨_, hexec, fun hx => ?flag, ?result, rfl, s.frameRegs_flagThenResult flag x _⟩
  case flag =>
    calc ((s.setReg vf flag).setReg x _).reg vf
      _ = (s.setReg vf flag).reg vf := State.reg_setReg_other _ _ hx.symm
      _ = flag := s.reg_setReg_same vf flag
  case result =>
    rw [← hvalue, ← State.reg_setReg_vf, ← State.reg_setReg_vf]
    exact congrArg _ (State.reg_setReg_same _ x _)

/-- For `x` other than 15 the flag stays in `VF`, and is read off as a number (R127). -/
theorem WritesFlagThenValue.away_from_vf {n : Nat} (h : WritesFlagThenValue i s x f value) (hx : x ≠ vf)
    (hflag : f.toNat = n) : ∃ t, exec i s = .next t ∧ (t.reg x).toNat = value ∧ (t.reg vf).toNat = n := by
  obtain ⟨t, ht, hvf, hreg, -, -⟩ := h
  exact ⟨t, ht, hreg, by rw [hvf hx, hflag]⟩

/-- An instruction that writes a register other than 15 and no flag leaves `VF`. -/
theorem exec_writes_reg_away_from_vf {b : Byte} (hexec : exec i s = .next (s.setReg x b).advance) (hx : x ≠ vf) :
    ∃ t, exec i s = .next t ∧ t.reg x = b ∧ t.reg vf = s.reg vf :=
  ⟨_, hexec, s.reg_setReg_same x b, s.reg_setReg_other b hx.symm⟩

end FlagThenResult

/-! ### The flag-writing operations against their rules (R122 to R126) -/

/-- Settles O26: the carry test, then the sum. -/
theorem addRegFlagThenSum : Obligations.AddRegFlagThenSum :=
  fun x y => ⟨decode_encode (.addReg x y), fun _ _ hf =>
    exec_writes_flag_then_value (op := (· + ·)) rfl ((addFlag_eq _ _).trans hf.symm) (BitVec.toNat_add _ _)⟩

/-- Settles O27: the source's test, then the difference. -/
theorem subRegFlagThenDifference : Obligations.SubRegFlagThenDifference :=
  fun x y => ⟨decode_encode (.subReg x y), fun _ _ hf =>
    exec_writes_flag_then_value (op := (· - ·)) rfl ((subFlag_eq _ _).trans hf.symm) (byte_sub_toNat _ _)⟩

/-- Settles O28: the low bit, then the half; the operation takes no second operand. -/
theorem shrFlagThenHalf : Obligations.ShrFlagThenHalf :=
  fun x y => ⟨decode_encode (.shr x y), fun s _ hf =>
    exec_writes_flag_then_value (y := y) (op := fun a _ => a >>> 1) rfl
      (BitVec.eq_of_toNat_eq ((shrFlag_toNat (s.reg x)).trans hf.symm)) (byte_shiftRight_one_toNat _)⟩

/-- Settles O29: the test of SUB, then the difference the other way round. -/
theorem subnRegFlagThenDifference : Obligations.SubnRegFlagThenDifference :=
  fun x y => ⟨decode_encode (.subnReg x y), fun _ _ hf =>
    exec_writes_flag_then_value (op := fun a b => b - a) rfl ((subFlag_eq _ _).trans hf.symm) (byte_sub_toNat _ _)⟩

/-- Settles O30: the low three bits, then the double; the operation takes no second operand. -/
theorem shlFlagThenDouble : Obligations.ShlFlagThenDouble :=
  fun x y => ⟨decode_encode (.shl x y), fun s _ hf =>
    exec_writes_flag_then_value (y := y) (op := fun a _ => a <<< 1) rfl
      (BitVec.eq_of_toNat_eq ((shlFlag_toNat (s.reg x)).trans hf.symm)) (byte_shiftLeft_one_toNat _)⟩

/-! ### The laws away from register 15 (R127) -/

/-- Settles O31: the flag write disturbs neither operand, so the rules of R122 to R126 speak of the old registers; the other
four operations leave `VF`. -/
theorem aluLawsAwayFromVf : Obligations.AluLawsAwayFromVf := by
  intro s x y hx hy
  have keepsX (f : Byte) : s.regAfterFlag f x = s.reg x := State.regAfterFlag_of_ne_vf f hx
  have keepsY (f : Byte) : s.regAfterFlag f y = s.reg y := State.regAfterFlag_of_ne_vf f hy
  have add : WritesFlagThenValue _ s x _ _ := (addRegFlagThenSum x y).2 s _ (addFlag_eq _ _)
  have sub : WritesFlagThenValue _ s x _ _ := (subRegFlagThenDifference x y).2 s _ (subFlag_eq _ _)
  have subn : WritesFlagThenValue _ s x _ _ := (subnRegFlagThenDifference x y).2 s _ (subFlag_eq _ _)
  have shr : WritesFlagThenValue _ s x _ _ := (shrFlagThenHalf x y).2 s _ (shrFlag_toNat _)
  have shl : WritesFlagThenValue _ s x _ _ := (shlFlagThenDouble x y).2 s _ (shlFlag_toNat _)
  simp only [keepsX, keepsY] at add sub subn shr shl
  refine ⟨add.away_from_vf hx (addFlag_toNat _ _), sub.away_from_vf hx (subFlag_toNat _ _),
    subn.away_from_vf hx (subFlag_toNat _ _), shr.away_from_vf hx (shrFlag_toNat _),
    shl.away_from_vf hx (shlFlag_toNat _), ?or, ?and, ?xor, ?ld⟩
  case or | and | xor | ld => exact exec_writes_reg_away_from_vf rfl hx

end Sys2Proof.Machine
end

section
/-! PROOFS. The timer moves and the index addition (R128 to R131): the execute phase by the row each has in R36, then the whole
cycle of a timer move, as the tick of the state the move leaves (R86, R87). -/

namespace Sys2Proof.Machine

/-! ### The execute phase -/

/-- An instruction that leaves `HALT` keeps every element outside its row of R36, the ports and the parameters. -/
theorem exec_keeps_outside_row {i : Instr} {s t : State} (he : exec i s = .next t) (hhalt : t.halt = s.halt) :
    FrameBut (mayWrite s.sp.val i) s t := by
  have hrow : ∀ e, mayWrite s.sp.val i e = false → e.same s t := fun _ => exec_writes_only_row he
  rcases exec_cases he with ⟨c, info, -, rfl⟩ | hq
  · exact ⟨hrow, hhalt, rfl, rfl⟩
  · exact ⟨hrow, hhalt, hq.ports, hq.params⟩

/-- Settles O32: each move copies its operand, and R36's row is its frame. -/
theorem timerMoves : Obligations.TimerMoves :=
  fun x => ⟨decode_encode (.ldVxDt x), decode_encode (.ldDtVx x), decode_encode (.ldStVx x), fun _ =>
    ⟨exec_writes_reg rfl, ⟨_, rfl, rfl, rfl, exec_keeps_outside_row (i := .ldDtVx x) rfl rfl⟩,
      ⟨_, rfl, rfl, rfl, exec_keeps_outside_row (i := .ldStVx x) rfl rfl⟩⟩⟩

/-- Settles O34: zero extension keeps the value of `V[x]`, and the sum of two words is taken modulo 65536. -/
theorem addIWrapsWithoutFlag : Obligations.AddIWrapsWithoutFlag := by
  refine fun x => ⟨decode_encode (.addI x), fun s =>
    ⟨_, rfl, ?sum, rfl, exec_keeps_outside_row (i := .addI x) rfl rfl⟩⟩
  case sum =>
    calc (s.i + zextByte (s.reg x)).toNat
      _ = (s.i.toNat + (zextByte (s.reg x)).toNat) % 65536 := BitVec.toNat_add _ _
      _ = (s.i.toNat + (s.reg x).toNat) % 65536 := by rw [zextByte_toNat]

/-! ### The whole cycle -/

/-- A step that runs an instruction to completion ticks the state the instruction leaves, and reports (OK, 0) (R86). -/
theorem step_of_completed {s u : State} {i : Instr} (hs : s.halt.code = .ok) (hf : s.fetch = .ok (encode i))
    (he : exec i (s.invoke (Config.randomByte s.ports.draws)) = .next u) (hu : u.halt.code = .ok) :
    step s = .next (u.tick.report ⟨.ok, 0⟩ u.toneDue) := by
  rw [step, cycle_of_executed _ (State.halted_eq_false.2 hs) hf (decode_encode i) he, State.close_of_running hu]

/-- Settles O33: the tick finds in the timers what the move has left there. -/
theorem timerMovesThroughTheirCycle : Obligations.TimerMovesThroughTheirCycle := by
  refine fun s x hs => ⟨fun hf => ⟨_, step_of_completed (i := .ldVxDt x) hs hf rfl hs, ?readDelay⟩,
    fun hf => ⟨_, step_of_completed (i := .ldDtVx x) hs hf rfl hs, ?setDelay⟩,
    fun hf => ⟨_, step_of_completed (i := .ldStVx x) hs hf rfl hs, ?setSound⟩⟩
  case readDelay =>
    exact ⟨State.reg_setReg_same _ x s.dt, countDown_toNat s.dt, rfl, fun _ hz => State.reg_setReg_other _ s.dt hz⟩
  case setDelay => exact ⟨countDown_toNat (s.reg x), rfl, fun _ => rfl⟩
  case setSound => exact ⟨countDown_toNat (s.reg x), State.toneDue_iff, rfl, fun _ => rfl⟩

end Sys2Proof.Machine
end

section
/-! PROOFS. The five baseline no-ops (R133 to R137): their words decode by the round trip, and each executes as the advance of
`PC` alone, with no operand read. -/

namespace Sys2Proof.Machine

/-- The five no-ops of an operand have one meaning, whatever the state holds (R133 to R137). -/
theorem exec_baselineNoOp {i : Instr} {x : RegIx} (h : i ∈ [.ldVxK x, .ldF x, .ldB x, .ldMemVx x, .ldVxMem x])
    (s : State) : exec i s = .next s.advance := by
  simp only [List.mem_cons, List.not_mem_nil, or_false] at h
  rcases h with rfl | rfl | rfl | rfl | rfl <;> rfl

/-- Settles O35: the words decode as the encodings of the five instructions, and advancing writes `PC` alone. -/
theorem baselineNoOpsOnlyAdvance : Obligations.BaselineNoOpsOnlyAdvance :=
  fun x => ⟨decode_encode (.ldVxK x), decode_encode (.ldF x), decode_encode (.ldB x), decode_encode (.ldMemVx x),
    decode_encode (.ldVxMem x), fun s _ hi => exec_baselineNoOp hi s⟩

end Sys2Proof.Machine
end

section
/-! PROOFS. The condition codes (R140), and what each host operation does (R160 to R167): one equation per outcome of the
image load, the window in which it is legal, the key flags, the snapshot, and the fatal condition that ends a cycle (R145). -/

namespace Sys2Proof.Machine

/-- Settles O49, by `hostStep_keeps_inv`: Reset restores the invariant, an image that fits lies above 0x1FF, a longer one
latches a fatal code, a cycle keeps it, and the other operations write nothing it speaks of. -/
theorem hostMovesKeepTheInvariant : Obligations.HostMovesKeepTheInvariant :=
  fun _ _ _ hs h => hostStep_keeps_inv hs h

/-! ### Conditions (R140, R145) -/

/-- Settles O58, by the tables of the numbers and of the fatal codes. -/
theorem conditionNumbers : Obligations.ConditionNumbers := rfl

/-- Settles O40: of the three ends of a running machine's cycle only a raised condition leaves it halted. -/
theorem fatalConditionsArePrecise : Obligations.FatalConditionsArePrecise := by
  intro s t hs h hbad
  cases cycle_cases_of_running hs h with
  | raised c info hc ht => subst ht; exact ⟨c, info, hc, rfl, rfl, rfl⟩
  | unrecognized w hf ht => subst ht; exact absurd hs hbad
  | completed i u hf he hq ht =>
    subst ht
    have hhalt : u.halt = s.halt := hq.halt
    exact absurd (hhalt ▸ hs) hbad

/-! ### The image load (R148, R160) -/

section ImageLoad

variable (s : State)

/-- A write of a byte sequence is read back byte by byte; past its end memory reads as before. -/
theorem State.cell_memWrites (a k : Nat) (bytes : List Byte) :
    (s.memWrites a bytes).cell (a + k) = bytes.getD k (s.cell (a + k)) := by
  have hread : (s.memWrites a bytes).cell (a + k) = _ := readCell_writeCells bytes s.mem a (a + k)
  rw [hread]
  by_cases hk : k < bytes.length
  · rw [dif_pos ⟨by omega, by omega⟩, List.getD_eq_getElem _ _ hk]
    simp only [Nat.add_sub_cancel_left]
  · rw [dif_neg (by omega), List.getD_eq_default _ _ (by omega)]
    rfl

theorem State.cell_memWrites_outside {a b : Nat} {bytes : List Byte} (h : b < a ∨ a + bytes.length ≤ b) :
    (s.memWrites a bytes).cell b = s.cell b :=
  (readCell_writeCells bytes s.mem a b).trans (dif_neg (by omega))

theorem Element.same_memWrites {e : Element} (h : e ≠ .memory) (a : Nat) (bytes : List Byte) :
    e.same s (s.memWrites a bytes) := by
  cases e with
  | memory => exact absurd rfl h
  | _ => rfl

variable {s} {image : List Byte}

theorem loadImage_of_fits (hw : s.ports.loadable = true) (h : image.length ≤ Config.imageMax) :
    loadImage image s = .next { s.memWrites Config.progBase image with
      ports := { s.ports with status := ⟨.ok, 0⟩, loadable := false } } := by
  rw [loadImage, if_pos hw, if_pos h]

theorem loadImage_of_tooLarge (hw : s.ports.loadable = true) (h : Config.imageMax < image.length) :
    loadImage image s = .next { s.raise .imageTooLarge 0 with
      ports := { s.ports with status := ⟨.imageTooLarge, 0⟩, loadable := false } } := by
  rw [loadImage, if_pos hw, if_neg (Nat.not_le.2 h)]

theorem loadImage_of_closed (hw : s.ports.loadable = false) : loadImage image s = .refused .loadImageOutsideWindow :=
  if_neg (by simp [hw])

end ImageLoad

/-- Settles O52, by the two outcomes in the window: one write of the image at 0x200, or one raised condition. -/
theorem loadImageCopiesVerbatim : Obligations.LoadImageCopiesVerbatim := by
  refine fun s image hw => ⟨fun hfits => ⟨_, loadImage_of_fits hw hfits, fun k hk => ?copied, fun a ha => ?outside,
    fun e he => ?elements, rfl, rfl, rfl⟩, fun hlong => ⟨_, loadImage_of_tooLarge hw hlong, fun e => ?rejected, rfl, rfl, rfl⟩⟩
  case copied => exact (s.cell_memWrites 0x200 k image).trans (List.getD_eq_getElem _ _ hk)
  case outside => exact s.cell_memWrites_outside ha
  case elements => exact e.same_trans (Element.same_memWrites s he 0x200 image) (e.same_outside _ s.pc s.halt _)
  case rejected => exact e.same_outside s s.pc _ _

/-! ### The image window (R160) -/

/-- An instruction writes none of the ports. -/
theorem exec_ports {i : Instr} {s t : State} (h : exec i s = .next t) : t.ports = s.ports := by
  rcases exec_cases h with ⟨c, info, -, rfl⟩ | hq
  · rfl
  · exact hq.ports

/-- Every cycle closes the window, at its invocation. -/
theorem cycle_closes_window {rnd : Byte} {s t : State} (h : cycle rnd s = .next t) : t.ports.loadable = false := by
  rcases cycle_cases h with ⟨-, rfl⟩ | ⟨-, a, -, rfl⟩ | ⟨-, w, -, -, rfl⟩ | ⟨-, w, i, u, -, -, he, rfl⟩
  · rfl
  · rfl
  · rfl
  · have hu : u.ports.loadable = false := by rw [exec_ports he]; rfl
    rcases u.close_eq ⟨.ok, 0⟩ with e | e <;> rw [e] <;> exact hu

theorem loadImage_closes_window {bytes : List Byte} {s t : State} (h : loadImage bytes s = .next t) :
    t.ports.loadable = false := by
  rcases loadImage_cases h with ⟨-, rfl⟩ | ⟨-, rfl⟩ <;> rfl

/-- Settles O53, operation by operation: Reset opens the window, a cycle and an image load close it, the rest leave it. -/
theorem imageWindowOpensAtReset : Obligations.ImageWindowOpensAtReset := by
  refine fun s => ⟨fun hw image => loadImage_of_closed hw, fun op t h => ?_⟩
  cases op with
  | reset => cases h; simp [hostReset, State.reset]
  | loadImage bytes => simp [loadImage_closes_window h]
  | cycle rnd => simp [cycle_closes_window h]
  | setKey | snapshot | isDirty | clearDirty => cases h; simp [setKey, clearDirty]

/-! ### Keys, snapshot and the dirty flag (R161, R162) -/

theorem Element.same_setKey {e : Element} (h : e ≠ .keys) (s : State) (k : Fin 16) (pressed : Bool) :
    e.same s (setKey k pressed s) := by
  cases e with
  | keys => exact absurd rfl h
  | memory => exact fun _ => rfl
  | _ => rfl

/-- Settles O54: the operation is one write of the key vector. -/
theorem setKeySetsOneFlag : Obligations.SetKeySetsOneFlag := by
  refine fun s k pressed => ⟨setKey k pressed s, rfl, ?_, fun j hj => ?_, rfl, fun e he => ?_, rfl, rfl, rfl⟩
  · exact Vector.getElem_set_self k.isLt
  · exact Vector.getElem_set_ne k.isLt j.isLt fun h => hj (Fin.ext h.symm)
  · exact Element.same_setKey (beq_eq_false_iff_ne.1 he) s k pressed

/-- The snapshot as one list of 2048 values, its index split into row and column by `finProdFinEquiv`, which counts
row-major. -/
theorem snapshot_eq_ofFn (s : State) :
    snapshot s = List.ofFn fun k : Fin (32 * 64) => fbGet s.fb (finProdFinEquiv.symm k) := by
  have hcell (r : Fin 32) (c : Fin 64) (h) :
      fbGet s.fb (finProdFinEquiv.symm ⟨r.val * 64 + c.val, h⟩) = fbGet s.fb (r, c) := by
    congr 1
    exact finProdFinEquiv.symm_apply_eq.2 (Fin.ext (by simp [finProdFinEquiv]; omega))
  rw [List.ofFn_mul]
  simp only [hcell, snapshot, List.flatMap, List.ofFn_eq_map]

theorem snapshot_getElem? (s : State) (r : Fin 32) (c : Fin 64) :
    (snapshot s)[64 * r.val + c.val]? = some (fbGet s.fb (r, c)) := by
  have h : 64 * r.val + c.val = (finProdFinEquiv (r, c)).val := Nat.add_comm _ _
  rw [snapshot_eq_ofFn, h, List.getElem?_ofFn, dif_pos (finProdFinEquiv (r, c)).isLt, Fin.eta, Equiv.symm_apply_apply]

theorem Element.same_clearDirty {e : Element} (h : e ≠ .dirtyFlag) (s : State) : e.same s (clearDirty s) := by
  cases e with
  | dirtyFlag => exact absurd rfl h
  | memory => exact fun _ => rfl
  | _ => rfl

/-- Settles O55: the snapshot by its closed form, the flag by the one write that clears it. -/
theorem snapshotIsRowMajor : Obligations.SnapshotIsRowMajor := by
  refine fun s => ⟨?_, snapshot_getElem? s, rfl, rfl, rfl, clearDirty s, rfl, rfl, rfl, fun e he => ?_, rfl, rfl, rfl⟩
  · rw [snapshot_eq_ofFn, List.length_ofFn]
  · exact Element.same_clearDirty (beq_eq_false_iff_ne.1 he) s

end Sys2Proof.Machine
end

section
/-! PROOFS. The start of a program (R172), with and without an image, and its end (R174): a jump to itself, after which the
timers alone move. -/

namespace Sys2Proof.Machine

/-! ### Boot (R172) -/

/-- Key presses write the keys alone, so the operations after them run with the keys they leave. -/
theorem hostRun_presses (presses : List (Fin 16 × Bool)) (rest : List HostOp) (s : State) :
    ∃ keys, hostRun (presses.map (fun p => .setKey p.1 p.2) ++ rest) s = hostRun rest { s with key := keys } := by
  induction presses generalizing s with
  | nil => exact ⟨s.key, rfl⟩
  | cons p presses ih => exact ih (setKey p.1 p.2 s)

theorem hostRun_cons {op : HostOp} {s t : State} (rest : List HostOp) (h : hostStep op s = .next t) :
    hostRun (op :: rest) s = hostRun rest t := by
  rw [hostRun, h]

/-- The word at 0x200 where an image was written there on reset memory: its first two bytes, zeros where it is shorter. -/
theorem State.fetch_of_image {s : State} {image : List Byte} (hpc : s.pc = 0x200)
    (hmem : s.mem = writeCells s.params.font [] Config.progBase image) :
    s.fetch = .ok (wordOfBytes (image.getD 0 0x00) (image.getD 1 0x00)) := by
  have hbyte (k : Nat) : s.cell (0x200 + k) = image.getD k 0x00 := by
    have hzero : ({ s with mem := [] } : State).cell (0x200 + k) = 0x00 :=
      (State.cell_of_mem_nil rfl _).trans (background_above (Nat.le_add_right_of_le (by decide)))
    rw [State.cell, hmem, ← hzero]
    exact State.cell_memWrites { s with mem := [] } 0x200 k image
  have hnat : s.pc.toNat = 0x200 := by rw [hpc]; rfl
  rw [s.fetch_ok (by omega), hnat, hbyte 1, ← hbyte 0]

/-- Settles O56: the image stands where the first fetch reads; without one it reads zeros, an unrecognized word. -/
theorem bootStartsAtTheImage : Obligations.BootStartsAtTheImage := by
  intro s image presses rnd hfits
  have hreset : hostStep .reset s = .next (hostReset s) := rfl
  constructor
  · have hload : hostStep (.loadImage image) (hostReset s) = _ := loadImage_of_fits rfl hfits
    rw [hostRun_cons _ hreset, hostRun_cons _ hload, ← List.append_nil (presses.map _)]
    obtain ⟨keys, hrun⟩ := hostRun_presses presses [] _
    exact ⟨_, hrun, rfl, rfl, State.fetch_of_image rfl rfl⟩
  · obtain ⟨keys, hrun⟩ := hostRun_presses presses [.cycle rnd] (hostReset s)
    have hfetch : ({ hostReset s with key := keys } : State).fetch = .ok 0x0000 :=
      State.fetch_of_image (image := []) rfl rfl
    have hcycle : hostStep (.cycle rnd) { hostReset s with key := keys } = _ := cycle_of_unrecognized rnd rfl hfetch rfl
    rw [List.cons_append, hostRun_cons _ hreset, hrun, hostRun_cons [] hcycle]
    exact ⟨_, rfl, rfl, rfl, rfl, hfetch⟩

/-! ### A finished program (R174) -/

/-- Below 4096 the 12-bit immediate of a jump holds `PC` exactly. -/
theorem State.jump_target_toNat {s : State} (h : s.pc.toNat ≤ 4094) : (s.pc.setWidth 12).toNat = s.pc.toNat := by
  rw [BitVec.toNat_setWidth]; omega

/-- A program is finished where the machine runs at a word that jumps to where it stands. -/
theorem State.finished_iff_fetch {s : State} :
    s.finished = true ↔ s.halt.code = .ok ∧ s.fetch = .ok (encode (.jp (s.pc.setWidth 12))) := by
  rw [State.finished]
  split
  · next hf => simp [hf]
  · next w hf => simp [hf, State.halted, encode]

theorem State.finished_iff_fetched {s : State} :
    s.finished = true ↔ s.halt.code = .ok ∧ ∃ nnn, s.fetched = some (.jp nnn) ∧ nnn.toNat = s.pc.toNat := by
  rw [State.finished_iff_fetch]
  refine and_congr_right fun _ => ⟨fun hf => ⟨s.pc.setWidth 12, ?_, State.jump_target_toNat (State.fetch_ok_pc hf)⟩, ?_⟩
  · rw [State.fetched, hf]
    exact decode_encode _
  · rintro ⟨nnn, hfetched, hpc⟩
    rw [State.fetched] at hfetched
    split at hfetched
    · cases hfetched
    · next w hf =>
      have hnnn : s.pc.setWidth 12 = nnn := by
        apply BitVec.eq_of_toNat_eq
        rw [State.jump_target_toNat (State.fetch_ok_pc hf), hpc]
      rw [hf, hnnn, decode_eq_some_iff.1 hfetched]

/-- What `k` steps of a finished program leave: the state it stands in, but for timers counted down `k` times, with floor 0,
and for the ports. -/
structure Idles (k : Nat) (s t : State) : Prop where
  finished : t.finished = true
  pc : t.pc = s.pc
  halt : t.halt = s.halt
  same : ∀ e : Element, e ≠ .delay → e ≠ .sound → e.same s t
  dt : t.dt.toNat = s.dt.toNat - k
  st : t.st.toNat = s.st.toNat - k

theorem Idles.refl {s : State} (h : s.finished = true) : Idles 0 s s :=
  ⟨h, rfl, rfl, fun e _ _ => e.same_outside s s.pc s.halt s.ports, rfl, rfl⟩

theorem Idles.trans {j k : Nat} {s t u : State} (h : Idles j s t) (h' : Idles k t u) : Idles (k + j) s u where
  finished := h'.finished
  pc := h'.pc.trans h.pc
  halt := h'.halt.trans h.halt
  same := fun e hd hs => e.same_trans (h.same e hd hs) (h'.same e hd hs)
  dt := by have := h.dt; have := h'.dt; omega
  st := by have := h.st; have := h'.st; omega

/-- One step of a finished program jumps to where it stands, and ticks. -/
theorem step_of_finished {s : State} (h : s.finished = true) : ∃ t, step s = .next t ∧ Idles 1 s t := by
  obtain ⟨hhalt, hf⟩ := State.finished_iff_fetch.1 h
  have htarget : zextImm (s.pc.setWidth 12) = s.pc := by
    apply BitVec.eq_of_toNat_eq
    rw [zextImm_toNat, State.jump_target_toNat (State.fetch_ok_pc hf)]
  have hjump : exec (.jp (s.pc.setWidth 12)) (s.invoke (Config.randomByte s.ports.draws)) =
      .next (s.invoke (Config.randomByte s.ports.draws)) := by
    rw [exec, execJp, htarget]
    rfl
  exact ⟨_, step_of_completed hhalt hf hjump hhalt, State.finished_iff_fetch.2 ⟨hhalt, hf⟩, rfl, rfl,
    fun e hd hs => e.same_trans (e.same_outside s s.pc s.halt _) (e.same_tick_report hd hs (s.invoke _) _ _),
    countDown_toNat s.dt, countDown_toNat s.st⟩

theorem run_succ_of_step {M : Host.Core} {s t : M.State} (k : Nat) (h : M.step s = .next t) :
    M.run (k + 1) s = M.run k t := by
  rw [Host.Core.run, h]

theorem run_of_finished (k : Nat) {s : State} (h : s.finished = true) :
    ∃ t, Host.Core.run Sys2Proof.core k s = .next t ∧ Idles k s t := by
  induction k generalizing s with
  | zero => exact ⟨s, rfl, .refl h⟩
  | succ k ih =>
    obtain ⟨t, hstep, ht⟩ := step_of_finished h
    obtain ⟨u, hrun, hu⟩ := ih ht.finished
    exact ⟨u, (run_succ_of_step (M := Sys2Proof.core) k hstep).trans hrun, ht.trans hu⟩

/-- Settles O57, by induction on the number of steps: each of them jumps to where it stands, and ticks. -/
theorem finishedProgramOnlyRunsItsTimersDown : Obligations.FinishedProgramOnlyRunsItsTimersDown := by
  refine fun s => ⟨State.finished_iff_fetched, fun k h => ?_⟩
  obtain ⟨t, hrun, ht⟩ := run_of_finished k h
  exact ⟨t, hrun, ht.finished, ht.pc, ht.halt, ht.same, ht.dt, ht.st⟩

end Sys2Proof.Machine
end
